-- ==== Sys2Proof/Word.lean ====
section
/-! DEFINITION. The word types of LSBCORE: a stream bit, a payload byte, a 32-bit register word, and the six error names. -/

namespace Sys2Proof

/-- A Bit, "a single binary value (0 or 1)" (00_scope.md R9). A bit sequence is a `List Bit`, first bit inserted first. -/
abbrev Bit := Bool

/-- One payload byte (10_state.md R31). -/
abbrev Byte := BitVec 8

/-- One 32-bit register word (10_state.md R28). -/
abbrev Word := BitVec 32

/-- The six error names of 60_exceptions.md R220. Their codes are `ErrorKind.code`. -/
inductive ErrorKind where
  | headerNotFound
  | invalidLength
  | truncatedData
  | messageTooLarge
  | imageTooSmall
  | illegalCommand
  deriving DecidableEq, Repr

end Sys2Proof
end

