-- ==== Sys2Proof/Syntax.lean ====
section
/-! DEFINITION. The six commands of 30_encoding.md R84 and the one command format `C` of R80. -/

namespace Sys2Proof

/-- The commands, one constructor for each row of `spec/opcode_table.json`. A command carries no operand (30_encoding.md
R82): every operand is a register or a memory that its rule names. -/
inductive Instr where
  /-- `CAP`, 43_service.md R193. -/
  | cap
  /-- `HDRSER`, 41_header.md R136. -/
  | hdrser
  /-- `HDRPARSE`, 41_header.md R137. -/
  | hdrparse
  /-- `EMBED`, 42_engine.md R170. -/
  | embed
  /-- `HIDE`, 43_service.md R195. -/
  | hide
  /-- `EXTRACT`, 43_service.md R197. -/
  | extract
  deriving DecidableEq, Repr

/-- The fields of a command word, format `C` (30_encoding.md R80). -/
structure CommandWord where
  /-- `[31:4]`, must be zero. -/
  zero : BitVec 28
  /-- `[3:0]`, the opcode. -/
  opc : BitVec 4
  deriving DecidableEq, Repr

end Sys2Proof
end

