-- ==== Sys2Proof/WellFormed.lean ====
section
/-! DEFINITION. What makes a command word one of the six commands (30_encoding.md R80, R85), and an instruction well formed. -/

namespace Sys2Proof

/-- `ZERO` holds zero (R80). -/
def CommandWord.zeroOk (f : CommandWord) : Bool :=
  f.zero == 0

/-- `OPC` is assigned: `OPC = 0` and `OPC = 7 … 15` are illegal (R85). -/
def CommandWord.opcOk (f : CommandWord) : Bool :=
  decide (1 ≤ f.opc.toNat) && decide (f.opc.toNat ≤ 6)

/-- A well-formed command word: one of the six commands and not `ILLEGAL` (R83). -/
def CommandWord.wf (f : CommandWord) : Bool :=
  f.zeroOk && f.opcOk

/-- A command carries no operand (R82), so there is nothing to check in an instruction: each of the six is well formed. -/
def Instr.wf : Instr → Bool
  | .cap => true
  | .hdrser => true
  | .hdrparse => true
  | .embed => true
  | .hide => true
  | .extract => true

end Sys2Proof
end

