-- ==== Sys2Proof/Decode.lean ====
section
/-! DEFINITION. Decoding a command word (30_encoding.md R83), total on all 2^32 words, and the encoder of R84. -/

namespace Sys2Proof

/-- Why a word is `ILLEGAL` (30_encoding.md R83, R85). All illegal words behave alike (60_exceptions.md R232). -/
inductive DecodeReject where
  /-- A bit of `[31:4]` is set. -/
  | zeroFieldNotZero
  /-- `OPC` is 0 or 7 to 15. -/
  | opcodeUnassigned
  deriving DecidableEq, Repr

/-- The fields of a command word (R80). -/
def CommandWord.ofWord (c : Word) : CommandWord :=
  { zero := c.extractLsb' 4 28, opc := c.extractLsb' 0 4 }

/-- The word that carries the fields (R80). -/
def CommandWord.toWord (f : CommandWord) : Word :=
  f.zero ++ f.opc

/-- The command an opcode names (R83, R84). -/
def decodeOpc (opc : BitVec 4) : Except DecodeReject Instr :=
  match opc.toNat with
  | 1 => .ok .cap
  | 2 => .ok .hdrser
  | 3 => .ok .hdrparse
  | 4 => .ok .embed
  | 5 => .ok .hide
  | 6 => .ok .extract
  | _ => .error .opcodeUnassigned

/-- Decoding of a command word, in the order of R83: `[31:4]` first, then the opcode. -/
def decode (c : Word) : Except DecodeReject Instr :=
  if (CommandWord.ofWord c).zeroOk then decodeOpc (CommandWord.ofWord c).opc
  else .error .zeroFieldNotZero

/-- The opcode of a command (R84). -/
def Instr.opc : Instr → BitVec 4
  | .cap => 1
  | .hdrser => 2
  | .hdrparse => 3
  | .embed => 4
  | .hide => 5
  | .extract => 6

/-- The word the host writes to `CMD` for a command (R84, R96). -/
def encode (i : Instr) : Word :=
  CommandWord.toWord { zero := 0, opc := i.opc }

/-- The host's view of the decoder: `w` holds the bits of the command word as `spec/opcode_table.json` numbers them, `nbits`
of them, those above zero. The one format is 32 bits long (R80), so a number that needs more is no command word. -/
def decodeTableWord (nbits w : Nat) : Option Instr :=
  if w % 2 ^ nbits < 2 ^ 32 then (decode (BitVec.ofNat 32 (w % 2 ^ nbits))).toOption else none

end Sys2Proof
end

