-- ==== Sys2Proof/Config.lean ====
section
/-! DEFINITION. The parameters of 00_scope.md R5 and of 92_eei_decisions.md, each at the value the spec takes, and the free
values the spec leaves open. The widths of registers that no parameter names stand in `Machine/State.lean`. -/

namespace Sys2Proof.Config

/-- `MagicBits` (41_header.md R130). -/
abbrev magicBits : Nat := 16

/-- `LengthBits` (41_header.md R130). -/
abbrev lengthBits : Nat := 32

/-- `HeaderBits = MagicBits + LengthBits` (41_header.md R130), 48. -/
abbrev headerBits : Nat := magicBits + lengthBits

/-- `MagicValue` (41_header.md R130). -/
def magicValue : Nat := 0x4454

/-- `CHANNELS`, the eligible channels of a pixel: red, green, blue (00_scope.md R5). -/
abbrev channels : Nat := 3

/-- `CW`, the width of a channel sample (00_scope.md R5; 90_conflicts.md C1 takes 8). -/
abbrev cw : Nat := 8

/-- The width of a pixel word, `4*CW` bits (20_memory.md R52). -/
abbrev pixelWordBits : Nat := cw + cw + cw + cw

/-- `DIM_BITS`, the width of `WIDTH`, `HEIGHT` and of a grid coordinate (00_scope.md R5, 10_state.md R30). -/
abbrev dimBits : Nat := 16

/-- `UINT_BITS`, the integer domain of the bit codec (00_scope.md R5). -/
abbrev uintBits : Nat := 64

/-- `PAY_ADDR_BITS`, the width of a payload address (00_scope.md R5). -/
abbrev payAddrBits : Nat := 32

/-- `NGRID`, the number of grid banks (00_scope.md R5): the banks are named by a one-bit number. -/
abbrev ngrid : Nat := 2

/-- `MAX_PIXELS`, the pixels of a bank that real storage backs (92_eei_decisions.md D7), at its default. -/
def maxPixels : Nat := 2 ^ 32

/-- `MAX_PAYLOAD`, the bytes of `PAY` that real storage backs (92_eei_decisions.md D7), at its default. -/
def maxPayload : Nat := 2 ^ 32

/-- `SHORT_GRID_ERROR`, the error of `EXTRACT` on a grid of fewer than 48 eligible channels (92_eei_decisions.md D12,
42_engine.md R161), at its default. -/
def shortGridError : ErrorKind := .truncatedData

/-- FREE VALUE: the pixel word that an unwritten location of a bank holds, drawn once at power-up (93_implementation_defined.md
U6, `any value`). The arguments name the power-up, the bank and the location's key. No value of it can be proved. (log 3) -/
opaque unwrittenPixelWord (powerUp bank key : Nat) : BitVec pixelWordBits

/-- FREE VALUE: the byte that an unwritten location of `PAY` holds, drawn once at power-up (U6). (log 3) -/
opaque unwrittenByte (powerUp addr : Nat) : Byte

/-- FREE VALUE: the pixel word left at a location that a command abandoned by reset could write (70_reset_and_hazards.md
R261, U7). `abandons` numbers the draw. (log 4) -/
opaque abandonedPixelWord (powerUp abandons bank key : Nat) : BitVec pixelWordBits

/-- FREE VALUE: the byte left at a payload location that an `EXTRACT` abandoned by reset could write (R261, U7). (log 4) -/
opaque abandonedByte (powerUp abandons addr : Nat) : Byte

end Sys2Proof.Config
end

