-- ==== Sys2Proof/Machine/State.lean ====
section
/-! DEFINITION. The state of LSBCORE (10_state.md R20) as plain data, its reset value (R35), and the reasons a step can stop. -/

namespace Sys2Proof.Machine

/-- A channel sample, `CW` bits, unsigned (10_state.md R30). -/
abbrev Sample := BitVec Config.cw

/-- One pixel: "red, green, blue, alpha" (10_state.md R30). -/
structure Pixel where
  r : Sample
  g : Sample
  b : Sample
  a : Sample
  deriving DecidableEq, Repr

/-- A memory: the locations something has written, each with its content, keys strictly rising (`Memory.wf`). A location
that is not listed is one that nothing has written since power-up (93_implementation_defined.md U6, log 3). -/
abbrev Memory (α : Type) := List (Nat × α)

/-- The number of a grid bank: the value of `CTRL.SRC`, or its complement (10_state.md R26). -/
abbrev Bank := BitVec 1

/-- The two phases of an extracting run (42_engine.md R176). -/
inductive Phase where
  | header
  | payload
  deriving DecidableEq, Repr

/-- The hidden working state "that exists only while a command runs" (10_state.md R20 (d), R32, R33; `phase` is 42_engine.md
R176's). -/
structure Run where
  /-- `OPCL`, the latched command word. -/
  opcl : Word
  /-- The scan walker's column. -/
  x : Nat
  /-- The scan walker's row. -/
  y : Nat
  /-- Stream bits consumed or collected so far. -/
  n : Nat
  /-- `NEEDED`, the value `neededBits`. -/
  needed : Nat
  /-- `CAPI`, the internally computed capacity. -/
  capi : Nat
  /-- `HSR`, the shift register that collects the header. -/
  hsr : BitVec 48
  /-- `BSR`, the shift register of one payload byte. -/
  bsr : Byte
  phase : Phase
  deriving DecidableEq, Repr

/-- `STATUS` (10_state.md R27). Its reserved bits have no storage. -/
structure Status where
  busy : Bool
  done : Bool
  err : Bool
  ecode : BitVec 3
  deriving DecidableEq, Repr

/-- What the host does next (00_scope.md R7): the accesses of 30_encoding.md R96, the reset input of 70_reset_and_hazards.md
R260, and letting the engine take one move. A register access carries a word offset, the number of a 32-bit word from the
block's base, so that a misaligned access cannot be expressed (20_memory.md R57, log 16). Pixels are addressed by bank and
coordinates (R52), payload bytes by address (R53). DESIGN CHOICE: `reset` is the whole of an assertion of the input and its
release, with no access between (log 18). -/
inductive HostAction where
  | writeReg (word : Nat) (v : Word)
  | readReg (word : Nat)
  | writePix (b : Bank) (x y : BitVec Config.dimBits) (w : BitVec Config.pixelWordBits)
  | readPix (b : Bank) (x y : BitVec Config.dimBits)
  | writePay (addr : BitVec Config.payAddrBits) (v : Byte)
  | readPay (addr : BitVec Config.payAddrBits)
  | reset
  | wait
  deriving DecidableEq, Repr

/-- What a completed read returned to the host (log 15). -/
inductive Reply where
  | word (v : Word)
  | pixel (w : BitVec Config.pixelWordBits)
  | byte (v : Byte)
  deriving DecidableEq, Repr

/-- The whole state: the registers of 10_state.md R21 to R27, the memories of R30 and R31, the hidden state of R32, and after
them the model's own fields. `CMD` has no storage (R25, R35). -/
structure State where
  status : Status
  /-- `CTRL.SRC` (R26). -/
  src : Bank
  width : BitVec Config.dimBits
  height : BitVec Config.dimBits
  plen : Word
  /-- The register `CAP` (R23). -/
  cap : Word
  /-- `HDR`, seen as `HDRHI` and `HDRLO` (R24). -/
  hdr : BitVec 48
  /-- `GRID[0]`, keyed by `gridKey`. -/
  grid0 : Memory Pixel
  /-- `GRID[1]`, keyed by `gridKey`. -/
  grid1 : Memory Pixel
  /-- `PAY`, keyed by address. -/
  pay : List Host.Cell
  /-- The hidden state, while a command runs. -/
  run : Option Run
  /-- The model's own: what the host does next, oldest first (log 1). -/
  pending : List HostAction
  /-- The model's own: what completed reads returned, oldest first (log 15). -/
  replies : List Reply
  /-- The model's own: whether a started command takes one step whole, or one step a pixel (70_reset_and_hazards.md R266
  allows both; log 2). -/
  stepwise : Bool
  /-- The model's own: which power-up the free values of unwritten memory belong to (log 3). -/
  powerUp : Nat
  /-- The model's own: how many commands a reset has abandoned, which numbers the free values they left (log 4). -/
  abandons : Nat
  deriving DecidableEq, Repr

/-- Why the machine stops. -/
inductive Fault where
  /-- Raised by the pixel-step engine alone, where `BUSY` is 1 and there is no run that a command could have started. No
  state that meets `State.Inv` does this, so no state that the block can reach. Safe: the machine stops. (log 14) -/
  | engineStuck
  deriving DecidableEq, Repr

/-- Why the model gives an instruction no meaning. -/
inductive Refusal where
  /-- An instruction whose meaning is not written yet. Raised by `exec` alone, and by no arm of it. Safe. -/
  | notModelled (mnemonic : String)
  /-- Raised by `EMBED`, `HIDE` and `EXTRACT` on a grid or a payload beyond the populated storage: "is refused by the model
  (given no meaning)" (92_eei_decisions.md D7). Never with the default parameters. Safe. (log 7) -/
  | storageNotPopulated
  deriving DecidableEq, Repr

/-- The outcome of a command or of a step. -/
abbrev Result := Host.Outcome State Fault Refusal

/-- The state after power-up and reset (10_state.md R35): every register 0, the engine idle, nothing written to a memory. -/
def State.reset : State where
  status := { busy := false, done := false, err := false, ecode := 0 }
  src := 0
  width := 0
  height := 0
  plen := 0
  cap := 0
  hdr := 0
  grid0 := []
  grid1 := []
  pay := []
  run := none
  pending := []
  replies := []
  stepwise := false
  powerUp := 0
  abandons := 0

end Sys2Proof.Machine
end

