-- ==== Sys2Proof/Machine/Flags.lean ====
section
/-! DEFINITION. `STATUS`: the flags of the block and their only two writes (10_state.md R27), and the error codes
(60_exceptions.md R221). -/

namespace Sys2Proof.Machine

/-- The error codes of 60_exceptions.md R221. -/
def errorCode : ErrorKind → BitVec 3
  | .headerNotFound => 1
  | .invalidLength => 2
  | .truncatedData => 3
  | .messageTooLarge => 4
  | .imageTooSmall => 5
  | .illegalCommand => 7

/-- `ECODE` at the end of a command: 0 for success (R27, R221). -/
def endCode : Option ErrorKind → BitVec 3
  | none => 0
  | some e => errorCode e

/-- `STATUS` at a `CMD` write: `BUSY <- 1; DONE <- 0; ERR <- 0; ECODE <- 0` (R27). -/
def statusStarted : Status :=
  { busy := true, done := false, err := false, ecode := 0 }

/-- `STATUS` at the end of a command: `BUSY <- 0; DONE <- 1; ECODE <- e; ERR <- (e ≠ 0)` (R27). -/
def statusEnded (e : Option ErrorKind) : Status :=
  { busy := false, done := true, err := endCode e != 0, ecode := endCode e }

/-- The word a read of `STATUS` returns: `[0] BUSY`, `[1] DONE`, `[2] ERR`, `[6:4] ECODE`, the rest 0 (R27, R28). -/
def Status.word (st : Status) : Word :=
  (0 : BitVec 25) ++ st.ecode ++ (0 : BitVec 1) ++ BitVec.ofBool st.err ++ BitVec.ofBool st.done
    ++ BitVec.ofBool st.busy

/-- The output signal `done` (60_exceptions.md R231). -/
def State.doneSignal (s : State) : Bool :=
  s.status.done

end Sys2Proof.Machine
end

