-- ==== Sys2Proof/Machine/Ops.lean ====
section
/-! DEFINITION. The shared operations: memory reads and writes, starting a command, ending it, and raising an error
(60_exceptions.md R224). -/

namespace Sys2Proof.Machine

/-! ## A memory as a sorted list -/

/-- What location `k` holds, or `none` where nothing has written it. -/
def Memory.read {α : Type} : Memory α → Nat → Option α
  | [], _ => none
  | (k, v) :: m, a => if a = k then some v else if a < k then none else Memory.read m a

/-- `m` with `v` stored at `a`; a location holds the last value written to it (20_memory.md R58). -/
def Memory.write {α : Type} : Memory α → Nat → α → Memory α
  | [], a, v => [(a, v)]
  | (k, u) :: m, a, v =>
    if a = k then (a, v) :: m else if a < k then (a, v) :: (k, u) :: m else (k, u) :: Memory.write m a v

/-- The canonical form: keys strictly rising and inside the space, `[0, 2^32)` for each of the three (20_memory.md R50).
An unlisted location holds no written value, and an entry always does, so no entry equals what an unlisted key reads as. -/
abbrev Memory.wf {α : Type} (m : Memory α) : Prop :=
  m.Pairwise (fun p q => p.1 < q.1) ∧ ∀ p ∈ m, p.1 < 2 ^ 32

/-- The bytes `vs` stored one after another from address `a` on. -/
def Memory.writeList {α : Type} : Memory α → Nat → List α → Memory α
  | m, _, [] => m
  | m, a, v :: vs => Memory.writeList (m.write a v) (a + 1) vs

/-! ## Pixels -/

/-- The pixel word `{A, B, G, R}` (20_memory.md R52). -/
def Pixel.toWord (px : Pixel) : BitVec Config.pixelWordBits :=
  px.a ++ px.b ++ px.g ++ px.r

/-- The pixel a pixel word carries: `R = word[7:0]`, `G = word[15:8]`, `B = word[23:16]`, `A = word[31:24]` (R52). -/
def Pixel.ofWord (w : BitVec Config.pixelWordBits) : Pixel :=
  { r := w.extractLsb' 0 Config.cw
    g := w.extractLsb' Config.cw Config.cw
    b := w.extractLsb' (2 * Config.cw) Config.cw
    a := w.extractLsb' (3 * Config.cw) Config.cw }

/-- `px.ch[c]`: red, green, blue; alpha has no channel index (00_scope.md R11). -/
def Pixel.ch (px : Pixel) : Fin Config.channels → Sample
  | 0 => px.r
  | 1 => px.g
  | 2 => px.b

/-- `px` with `px.ch[c] <- v`. -/
def Pixel.setCh (px : Pixel) : Fin Config.channels → Sample → Pixel
  | 0, v => { px with r := v }
  | 1, v => { px with g := v }
  | 2, v => { px with b := v }

/-! ## The three address spaces -/

/-- The key of pixel `(x, y)` in a bank: it does not depend on `W` (20_memory.md R51). (log 12) -/
def gridKey (x y : Nat) : Nat :=
  y * 2 ^ Config.dimBits + x

/-- The storage of bank `b`. -/
def State.bank (s : State) (b : Bank) : Memory Pixel :=
  if b = 0 then s.grid0 else s.grid1

/-- `s` with the storage of bank `b` replaced. -/
def State.setBank (s : State) (b : Bank) (m : Memory Pixel) : State :=
  if b = 0 then { s with grid0 := m } else { s with grid1 := m }

/-- `PixRead(b, x, y)` (00_scope.md R11). An unwritten pixel reads as its free value (70_reset_and_hazards.md R263, log 3). -/
def State.pixRead (s : State) (b : Bank) (x y : Nat) : Pixel :=
  ((s.bank b).read (gridKey x y)).getD
    (Pixel.ofWord (Config.unwrittenPixelWord s.powerUp b.toNat (gridKey x y)))

/-- `PixWrite(b, x, y, px)`: all four samples (20_memory.md R58). -/
def State.pixWrite (s : State) (b : Bank) (x y : Nat) (px : Pixel) : State :=
  s.setBank b ((s.bank b).write (gridKey x y) px)

/-- `PayRead(a)` (00_scope.md R11). An unwritten byte reads as its free value (R263, log 3). -/
def State.payRead (s : State) (a : Nat) : Byte :=
  (Memory.read s.pay a).getD (Config.unwrittenByte s.powerUp a)

/-- `PayWrite(a, v)` (00_scope.md R11). -/
def State.payWrite (s : State) (a : Nat) (v : Byte) : State :=
  { s with pay := Memory.write s.pay a v }

/-- The payload of length `len`: `PAY[0], …, PAY[len-1]` (10_state.md R31). -/
def State.payload (s : State) (len : Nat) : List Byte :=
  (List.range len).map s.payRead

/-! ## Starting and ending a command -/

/-- The hidden state a command starts from: the walker at `(0, 0)`, no bit taken, `NEEDED` at 48, phase 1 (10_state.md R33,
42_engine.md R175, R176). The shift registers and `CAPI` are written before they are read (R32, log 9). -/
def startRun (c : Word) : Run :=
  { opcl := c, x := 0, y := 0, n := 0, needed := Config.headerBits, capi := 0, hsr := 0, bsr := 0,
    phase := .header }

/-- A write of `c` to `CMD`: latch the word and set `STATUS` to busy (30_encoding.md R81). -/
def accept (c : Word) (s : State) : State :=
  { s with status := statusStarted, run := some (startRun c) }

/-- The end of a command: `STATUS` done with the error's code, the hidden state gone (10_state.md R27, R32). -/
def finish (e : Option ErrorKind) (s : State) : State :=
  { s with status := statusEnded e, run := none }

/-- The command ends with success. -/
def succeed (s : State) : State :=
  finish none s

/-- `raise E` (60_exceptions.md R224): the command ends here, nothing but `STATUS` is written, the engine is idle. Nothing
is saved, no vector is taken, and there is nothing to return from or restore (R233): the next `CMD` write finds the engine
as after a success. -/
def raise (e : ErrorKind) (s : State) : State :=
  finish (some e) s

/-- A command on `pixels` grid pixels that touches the payload bytes below `bytes`: with the state it leaves, or refused
where the platform's storage does not reach (92_eei_decisions.md D7, log 7). -/
def withStorage (pixels bytes : Nat) (t : State) : Result :=
  if pixels ≤ Config.maxPixels ∧ bytes ≤ Config.maxPayload then .next t
  else .refused .storageNotPopulated

/-- The outcome of an undefined command word (60_exceptions.md R232): accepted, then ended at once with `IllegalCommand`. -/
def illegalCommand (c : Word) (s : State) : State :=
  raise .illegalCommand (accept c s)

/-! ## Reset -/

/-- Every register at its reset value and the engine idle, the memories as they are (70_reset_and_hazards.md R260, R261). -/
def State.resetRegisters (s : State) : State :=
  { State.reset with
    grid0 := s.grid0, grid1 := s.grid1, pay := s.pay
    pending := s.pending, replies := s.replies, stepwise := s.stepwise
    powerUp := s.powerUp, abandons := s.abandons }

end Sys2Proof.Machine
end

