-- ==== Sys2Proof/Machine/Operands.lean ====
section
/-! DEFINITION. The operands of the commands. A command word carries none (30_encoding.md R82): each is a register or a
memory, read here: the grid's bounds, the capacity, the scan order, the source and destination banks, the payload. -/

namespace Sys2Proof.Machine

/-- A grid as the function rules of 42_engine.md take it: the pixel at column `x`, row `y`. -/
abbrev Grid := Nat → Nat → Pixel

/-- `W`, the number of pixel columns (10_state.md R21). -/
def State.W (s : State) : Nat :=
  s.width.toNat

/-- `H`, the number of pixel rows (10_state.md R21). -/
def State.H (s : State) : Nat :=
  s.height.toNat

/-- `TotalBits`, `T = W*H*3` (43_service.md R190). -/
def totalBits (W H : Nat) : Nat :=
  W * H * Config.channels

/-- `maxCapacity(W, H)` in bytes (43_service.md R190). -/
def maxCapacity (W H : Nat) : Nat :=
  if totalBits W H < Config.headerBits then 0 else (totalBits W H - Config.headerBits) / 8

/-- `neededBits = HeaderBits + Length*8` (42_engine.md R160). -/
def neededBits (len : Nat) : Nat :=
  Config.headerBits + len * 8

/-- The pixels of the grid in scan order: row-major, top row first, left to right (42_engine.md R150, R151): pixel `p` is
column `p mod W`, row `p div W`. -/
def scan (W H : Nat) : List (Nat × Nat) :=
  (List.range (W * H)).map fun p => (p % W, p / W)

/-- The number of the destination bank, `1 - SRC` (10_state.md R26). -/
def State.dst (s : State) : Bank :=
  1 - s.src

/-- Bank `b` as a grid. -/
def State.grid (s : State) (b : Bank) : Grid :=
  s.pixRead b

/-- Every pixel of the `W × H` rectangle of bank `b` written, in scan order, with the pixel of `G` at its place. -/
def State.writeRect (s : State) (b : Bank) (G : Grid) : State :=
  s.setBank b ((scan s.W s.H).foldl (fun m q => m.write (gridKey q.1 q.2) (G q.1 q.2)) (s.bank b))

/-- How many payload bytes an embedding of `nb` payload bits reads on a grid of `T` eligible channels: "a byte none of whose
bits is embedded is not read" (42_engine.md R177). -/
def bytesRead (nb T : Nat) : Nat :=
  (min nb T + 7) / 8

end Sys2Proof.Machine
end

