-- ==== Sys2Proof/Machine/HostPort.lean ====
section
/-! DEFINITION. The host's ports: the register map (10_state.md R28), the grid port (20_memory.md R52) and the payload port
(R53). The write to `CMD` is in `Machine/Control.lean`. -/

namespace Sys2Proof.Machine

/-- The nine register words of 10_state.md R28. -/
inductive Reg where
  | cmd
  | status
  | ctrl
  | width
  | height
  | plen
  | cap
  | hdrlo
  | hdrhi
  deriving DecidableEq, Repr

/-- The word offset of a register: the number of its 32-bit word from the block's base (10_state.md R28, 20_memory.md R57). -/
def regWord : Reg → Nat
  | .cmd => 0
  | .status => 1
  | .ctrl => 2
  | .width => 3
  | .height => 4
  | .plen => 5
  | .cap => 6
  | .hdrlo => 7
  | .hdrhi => 8

/-- The byte offset of a register, a multiple of 4 by construction (20_memory.md R57). -/
def regOffset (r : Reg) : Nat :=
  4 * regWord r

/-- The register at a word offset, or none: every other offset is unmapped (10_state.md R28). -/
def regAt (word : Nat) : Option Reg :=
  match word with
  | 0 => some .cmd
  | 1 => some .status
  | 2 => some .ctrl
  | 3 => some .width
  | 4 => some .height
  | 5 => some .plen
  | 6 => some .cap
  | 7 => some .hdrlo
  | 8 => some .hdrhi
  | _ => none

/-- What a read of a register returns: reserved bits and `CMD` read as 0 (10_state.md R24, R25, R28). -/
def State.regRead (s : State) : Reg → Word
  | .cmd => 0
  | .status => s.status.word
  | .ctrl => s.src.setWidth 32
  | .width => s.width.setWidth 32
  | .height => s.height.setWidth 32
  | .plen => s.plen
  | .cap => s.cap
  | .hdrlo => s.hdr.extractLsb' 0 32
  | .hdrhi => (s.hdr.extractLsb' 32 16).setWidth 32

/-- A write to a register other than `CMD` (whose write is `command`, in `Machine/Control.lean`): reserved bits are dropped, a read-only register ignores it (10_state.md R28).
The two `HDR` words are written each on its own (20_memory.md R56). -/
def State.regWrite (s : State) (r : Reg) (v : Word) : State :=
  match r with
  | .cmd => s
  | .status => s
  | .ctrl => { s with src := v.extractLsb' 0 1 }
  | .width => { s with width := v.extractLsb' 0 16 }
  | .height => { s with height := v.extractLsb' 0 16 }
  | .plen => { s with plen := v }
  | .cap => s
  | .hdrlo => { s with hdr := s.hdr.extractLsb' 32 16 ++ v }
  | .hdrhi => { s with hdr := v.extractLsb' 0 16 ++ s.hdr.extractLsb' 0 32 }

/-- What a read at a word offset returns: an unmapped offset reads 0 (10_state.md R28). -/
def State.wordRead (s : State) (word : Nat) : Word :=
  match regAt word with
  | some r => s.regRead r
  | none => 0

/-- A write at a word offset other than `CMD`'s: at an unmapped offset it is ignored (10_state.md R28). -/
def State.wordWrite (s : State) (word : Nat) (v : Word) : State :=
  match regAt word with
  | some r => s.regWrite r v
  | none => s

/-- `s` with the answer to a host read recorded (log 15). -/
def State.reply (s : State) (a : Reply) : State :=
  { s with replies := s.replies ++ [a] }

end Sys2Proof.Machine
end

