-- ==== Sys2Proof/Machine/BitCodec.lean ====
section
/-! DEFINITION. The Bit Codec's four functions (40_bitcodec.md R110 to R113). -/

namespace Sys2Proof.Machine

/-- `uintToBits(value, width)` (40_bitcodec.md R112): `width` bits, most significant first, of the low `width` bits of
`value`. The caller guarantees `width ≤ UINT_BITS`; see `uintToBitsChecked`. -/
def uintToBits (value width : Nat) : List Bit :=
  (List.range width).map fun i => value.testBit (width - 1 - i)

/-- `uintToBits` with its contract: refused for a width beyond the integer domain (93_implementation_defined.md U3, log 11). -/
def uintToBitsChecked (value width : Nat) : Option (List Bit) :=
  if width ≤ Config.uintBits then some (uintToBits value width) else none

/-- `bitsToUint(bits)` (40_bitcodec.md R113): the left fold modulo `2^UINT_BITS`, first bit most significant. -/
def bitsToUint (bits : List Bit) : Nat :=
  bits.foldl (fun acc b => (2 * acc + b.toNat) % 2 ^ Config.uintBits) 0

/-- `bytesToBits(bytes)` (40_bitcodec.md R110): "for each byte, emits its 8 bits most-significant-bit first, in input
order". -/
def bytesToBits (bytes : List Byte) : List Bit :=
  bytes.flatMap fun v => (List.range 8).map fun i => v.getLsbD (7 - i)

/-- `bitsToBytes(bits)` (40_bitcodec.md R111): runs of 8 bits, most significant first; a shorter trailing run is
discarded. -/
def bitsToBytes (bits : List Bit) : List Byte :=
  (List.range (bits.length / 8)).map fun j => BitVec.ofNat 8 (bitsToUint ((bits.drop (8 * j)).take 8))

end Sys2Proof.Machine
end

