-- ==== Sys2Proof/Machine/HeaderCodec.lean ====
section
/-! DEFINITION. The Header Codec (41_header.md): the header, its two functions, and the commands `HDRSER` and `HDRPARSE`. -/

namespace Sys2Proof.Machine

/-- The header record (41_header.md R130). -/
structure Header where
  magic : BitVec 16
  length : BitVec 32
  deriving DecidableEq, Repr

/-- `serializeHeader(payloadLengthBytes)` (41_header.md R131). -/
def serializeHeader (payloadLengthBytes : Nat) : List Bit :=
  uintToBits Config.magicValue Config.magicBits ++ uintToBits payloadLengthBytes Config.lengthBits

/-- `parseHeader(bits)` (41_header.md R132, R134): Magic is `bits[0:16)`, Length `bits[16:48)`; the comparison is on all 16
bits of Magic and looks at nothing else. The caller gives at least 48 bits; see `parseHeaderChecked`. -/
def parseHeader (bits : List Bit) : Except ErrorKind Header :=
  let magic := bitsToUint (bits.take Config.magicBits)
  let length := bitsToUint ((bits.drop Config.magicBits).take Config.lengthBits)
  if magic ≠ Config.magicValue then .error .headerNotFound
  else .ok { magic := BitVec.ofNat 16 magic, length := BitVec.ofNat 32 length }

/-- `parseHeader` with its contract: refused on fewer than 48 bits (93_implementation_defined.md U4, log 11). -/
def parseHeaderChecked (bits : List Bit) : Option (Except ErrorKind Header) :=
  if Config.headerBits ≤ bits.length then some (parseHeader bits) else none

/-- The value of `HDR` for a 48-bit sequence: `HDR = bitsToUint(h)` (41_header.md R133). -/
def hdrOfBits (h : List Bit) : BitVec 48 :=
  BitVec.ofNat 48 (bitsToUint h)

/-- The sequence a value of `HDR` stands for: `h = uintToBits(HDR, 48)` (41_header.md R133). -/
def bitsOfHdr (v : BitVec 48) : List Bit :=
  uintToBits v.toNat Config.headerBits

/-- `HDRSER` (41_header.md R136): `HDR <- bitsToUint(serializeHeader(PLEN))`; always succeeds. -/
def execHdrser (s : State) : Result :=
  .next (succeed { accept (encode .hdrser) s with hdr := hdrOfBits (serializeHeader s.plen.toNat) })

/-- `HDRPARSE` (41_header.md R137): `PLEN` receives the parsed Length, or the command ends with `HeaderNotFound` and `PLEN`
unchanged. -/
def execHdrparse (s : State) : Result :=
  match parseHeader (bitsOfHdr s.hdr) with
  | .ok h => .next (succeed { accept (encode .hdrparse) s with plen := h.length })
  | .error e => .next (raise e (accept (encode .hdrparse) s))

end Sys2Proof.Machine
end

