-- ==== Sys2Proof/Machine/Engine.lean ====
section
/-! DEFINITION. The Pixel LSB Engine's functions (42_engine.md sections 1 to 3) and the command `EMBED` (section 4). -/

namespace Sys2Proof.Machine

/-- `setLSB(v, b) = {v[CW-1:1], b}` (42_engine.md R153). -/
def setLSB (v : Sample) (b : Bit) : Sample :=
  v.extractLsb' 1 (Config.cw - 1) ++ BitVec.ofBool b

/-- The LSBs of a pixel's eligible channels in order: red, green, blue (42_engine.md R150). -/
def Pixel.lsbs (px : Pixel) : List Bit :=
  [px.r.getLsbD 0, px.g.getLsbD 0, px.b.getLsbD 0]

/-- `lsbStream(G, W, H)` (42_engine.md R151). -/
def lsbStream (G : Grid) (W H : Nat) : List Bit :=
  (scan W H).flatMap fun q => (G q.1 q.2).lsbs

/-- One sample of the output of `embed`: with the bit of its stream index, if the sequence has that bit, else unchanged
(42_engine.md R155). -/
def embedSample (v : Sample) : Option Bit → Sample
  | some b => setLSB v b
  | none => v

/-- The pixel of scan index `p` in the output of `embed` (42_engine.md R155): channel `c` takes bit `3*p + c`; alpha is
copied. -/
def embedPixel (bits : List Bit) (p : Nat) (px : Pixel) : Pixel :=
  { r := embedSample px.r bits[3 * p]?
    g := embedSample px.g bits[3 * p + 1]?
    b := embedSample px.b bits[3 * p + 2]?
    a := px.a }

/-- `embed(grid, bits)` on a grid of `W` columns (42_engine.md R155). Its value is the output grid's inside the rectangle. -/
def embed (G : Grid) (W : Nat) (bits : List Bit) : Grid :=
  fun x y => embedPixel bits (y * W + x) (G x y)

/-- The engine's `extract(grid)` (42_engine.md R160): header first, then exactly `8*Length` payload bits. The second test of
exhaustion cannot fail (R162) and is kept because the source has it. -/
def extract (G : Grid) (W H : Nat) : Except ErrorKind (List Bit) :=
  let s := lsbStream G W H
  if s.length < Config.headerBits then .error Config.shortGridError
  else
    match parseHeader (s.take Config.headerBits) with
    | .error e => .error e
    | .ok hdr =>
      if maxCapacity W H < hdr.length.toNat then .error .invalidLength
      else if s.length < neededBits hdr.length.toNat then .error .truncatedData
      else .ok ((s.take (neededBits hdr.length.toNat)).drop Config.headerBits)

/-- The bits `EMBED` offers: `bytesToBits([PAY[0], ..., PAY[PLEN-1]])` (42_engine.md R170), less the bytes whose bits would
fall at or beyond stream index `T`, which are not read. -/
def State.embedBits (s : State) : List Bit :=
  bytesToBits (s.payload (bytesRead (8 * s.plen.toNat) (totalBits s.W s.H)))

/-- `EMBED` (42_engine.md R170): the payload's bits embedded into the destination bank, no header, no capacity check, no
error. -/
def execEmbed (s : State) : Result :=
  withStorage (s.W * s.H) (bytesRead (8 * s.plen.toNat) (totalBits s.W s.H))
    (succeed ((accept (encode .embed) s).writeRect s.dst (embed (s.grid s.src) s.W s.embedBits)))

end Sys2Proof.Machine
end

