-- ==== Sys2Proof/Machine/Service.lean ====
section
/-! DEFINITION. The Hide/Extract Service (43_service.md): its functions `hide` and `extract`, and the commands `CAP`, `HIDE`
and `EXTRACT`. -/

namespace Sys2Proof.Machine

/-- The frame of a payload: `serializeHeader(L) ++ bytesToBits(payload)` (30_encoding.md R90). -/
def frame (payload : List Byte) : List Bit :=
  serializeHeader payload.length ++ bytesToBits payload

/-- The two checks of `hide`, in their order (43_service.md R194, R195; 60_exceptions.md R230). -/
def hideCheck (capacity len : Nat) : Option ErrorKind :=
  if capacity = 0 then some .imageTooSmall
  else if capacity < len then some .messageTooLarge
  else none

/-- `hide(payload, grid)` (43_service.md R194). -/
def hide (P : List Byte) (G : Grid) (W H : Nat) : Except ErrorKind Grid :=
  match hideCheck (maxCapacity W H) P.length with
  | some e => .error e
  | none => .ok (embed G W (frame P))

/-- The service's `extract(grid)` (43_service.md R196): the engine's bits as bytes, its errors unchanged. -/
def extractService (G : Grid) (W H : Nat) : Except ErrorKind (List Byte) :=
  match extract G W H with
  | .error e => .error e
  | .ok bits => .ok (bitsToBytes bits)

/-- `CAP` (43_service.md R193): `CAP <- maxCapacity(W, H)`; always succeeds. -/
def execCap (s : State) : Result :=
  .next (succeed { accept (encode .cap) s with cap := BitVec.ofNat 32 (maxCapacity s.W s.H) })

/-- What `HIDE` leaves (43_service.md R195): on success the header in `HDR` and the frame embedded into the destination
bank. -/
def hideEffect (s : State) : State :=
  match hideCheck (maxCapacity s.W s.H) s.plen.toNat with
  | some e => raise e (accept (encode .hide) s)
  | none =>
    succeed (State.writeRect
      { accept (encode .hide) s with hdr := hdrOfBits (serializeHeader s.plen.toNat) } s.dst
      (embed (s.grid s.src) s.W (frame (s.payload s.plen.toNat))))

/-- The payload bytes `HIDE` reads: none where a check fails (43_service.md R195). -/
def hideBytes (s : State) : Nat :=
  match hideCheck (maxCapacity s.W s.H) s.plen.toNat with
  | some _ => 0
  | none => s.plen.toNat

/-- `HIDE` (43_service.md R195). -/
def execHide (s : State) : Result :=
  withStorage (s.W * s.H) (hideBytes s) (hideEffect s)

/-- The payload that `EXTRACT` finds in the source bank, or its error. -/
def State.found (s : State) : Except ErrorKind (List Byte) :=
  extractService (s.grid s.src) s.W s.H

/-- What `EXTRACT` leaves (43_service.md R197): `HDR` once 48 bits could be collected, and on success the payload in `PAY`
and its length in `PLEN`. -/
def extractEffect (s : State) : State :=
  if totalBits s.W s.H < Config.headerBits then raise Config.shortGridError (accept (encode .extract) s)
  else
    let t := { accept (encode .extract) s with
      hdr := hdrOfBits ((lsbStream (s.grid s.src) s.W s.H).take Config.headerBits) }
    match s.found with
    | .error e => raise e t
    | .ok bytes =>
      succeed { t with pay := Memory.writeList s.pay 0 bytes, plen := BitVec.ofNat 32 bytes.length }

/-- The payload bytes `EXTRACT` writes: none where it fails (60_exceptions.md R226). -/
def extractBytes (s : State) : Nat :=
  match s.found with
  | .error _ => 0
  | .ok bytes => bytes.length

/-- `EXTRACT` (43_service.md R197). -/
def execExtract (s : State) : Result :=
  withStorage (s.W * s.H) (extractBytes s) (extractEffect s)

end Sys2Proof.Machine
end

