-- ==== Sys2Proof/Machine/Dispatch.lean ====
section
/-! DEFINITION. The dispatch from a command to its meaning, one arm for each command of 30_encoding.md R84. -/

namespace Sys2Proof.Machine

def exec (i : Instr) (s : State) : Host.Outcome State Fault Refusal :=
  match i with
  | .cap => Sys2Proof.Machine.execCap s
  | .hdrser => Sys2Proof.Machine.execHdrser s
  | .hdrparse => Sys2Proof.Machine.execHdrparse s
  | .embed => Sys2Proof.Machine.execEmbed s
  | .hide => Sys2Proof.Machine.execHide s
  | .extract => Sys2Proof.Machine.execExtract s

end Sys2Proof.Machine
end

