-- ==== Sys2Proof/Machine/Run.lean ====
section
/-! DEFINITION. The engine one pixel a step (42_engine.md section 5): the scan walker, the embedding run, the extracting run,
the start of a command at that granularity, and a running command abandoned by reset. The functional rules govern results
(42_engine.md, introduction); this file must give the same ones. -/

namespace Sys2Proof.Machine

/-! ## The scan walker -/

/-- The walker is exhausted when `W = 0` or `y ≥ H` (10_state.md R33). -/
def walkerExhausted (W H y : Nat) : Bool :=
  W == 0 || decide (H ≤ y)

/-- `next((x, y))` (10_state.md R33). -/
def walkerNext (W : Nat) (q : Nat × Nat) : Nat × Nat :=
  if q.1 + 1 < W then (q.1 + 1, q.2) else (0, q.2 + 1)

/-- The three channels of a pixel, in order (42_engine.md R150). -/
def channelOrder : List (Fin Config.channels) :=
  [0, 1, 2]

/-! ## The embedding run -/

/-- What a pixel step of an embedding carries from channel to channel: the pixel, `n` and `BSR`. -/
structure EmbedLane where
  px : Pixel
  n : Nat
  bsr : Byte
  deriving DecidableEq, Repr

/-- The bit source of an embedding run (42_engine.md R177): bit `n` of the run, and `BSR` after it. `hb` is the number of
header bits in front, 48 for `HIDE` and 0 for `EMBED`. A payload byte is read at its first bit, and `BSR` shifts left once
a bit. -/
def nextBit (hb : Nat) (s : State) (n : Nat) (bsr : Byte) : Bit × Byte :=
  if n < hb then (s.hdr.getLsbD (hb - 1 - n), bsr)
  else
    let loaded := if (n - hb) % 8 = 0 then s.payRead ((n - hb) / 8) else bsr
    (loaded.getLsbD 7, loaded <<< 1)

/-- One channel of an embedding's pixel step (42_engine.md R175): `nb` is `NB`, the number of bits offered. -/
def embedChannel (hb nb : Nat) (s : State) (l : EmbedLane) (c : Fin Config.channels) : EmbedLane :=
  if l.n < nb then
    let (b, bsr) := nextBit hb s l.n l.bsr
    { px := l.px.setCh c (setLSB (l.px.ch c) b), n := l.n + 1, bsr := bsr }
  else l

/-- One move of an embedding run (42_engine.md R175): a pixel step, or the end where the walker is exhausted. -/
def embedTick (hb : Nat) (s : State) (r : Run) : State :=
  if walkerExhausted s.W s.H r.y then succeed s
  else
    let l := channelOrder.foldl (embedChannel hb (hb + 8 * s.plen.toNat) s)
      { px := s.pixRead s.src r.x r.y, n := r.n, bsr := r.bsr }
    let q := walkerNext s.W (r.x, r.y)
    { s.pixWrite s.dst r.x r.y l.px with
      run := some { r with x := q.1, y := q.2, n := l.n, bsr := l.bsr } }

/-! ## The extracting run -/

/-- What a pixel step of an extraction carries from channel to channel: `n`, the shift registers and `PAY`. -/
structure ExtractLane where
  n : Nat
  hsr : BitVec 48
  bsr : Byte
  pay : List Host.Cell
  deriving DecidableEq, Repr

/-- One channel of an extraction's pixel step (42_engine.md R176): a header bit into `HSR`, or a payload bit into `BSR` and
every eighth time the byte into `PAY`. -/
def extractChannel (needed : Nat) (px : Pixel) (l : ExtractLane) (c : Fin Config.channels) : ExtractLane :=
  if l.n < needed then
    let b := (px.ch c).getLsbD 0
    if l.n < Config.headerBits then { l with n := l.n + 1, hsr := l.hsr.extractLsb' 0 47 ++ BitVec.ofBool b }
    else
      let bsr : Byte := l.bsr.extractLsb' 0 7 ++ BitVec.ofBool b
      { l with
        n := l.n + 1
        bsr := bsr
        pay := if (l.n - Config.headerBits) % 8 = 7 then
            Memory.write l.pay ((l.n - Config.headerBits) / 8) bsr
          else l.pay }
  else l

/-- The Magic field of a collected header, `HSR[47:32]`. -/
def magicField (h : BitVec 48) : BitVec 16 :=
  h.extractLsb' Config.lengthBits Config.magicBits

/-- The Length field of a collected header, `HSR[31:0]`. -/
def lengthField (h : BitVec 48) : BitVec 32 :=
  h.extractLsb' 0 Config.lengthBits

/-- The last line of R176's pixel step: with all needed bits collected in phase 2, `PLEN` receives the Length and the
command ends; else the run goes on. -/
def extractEnd (s : State) (r : Run) : State :=
  if r.phase = .payload ∧ r.n = r.needed then
    succeed { s with plen := lengthField r.hsr, run := some r }
  else { s with run := some r }

/-- The phase change of R176 after the step that collects bit 47: `HDR <- HSR`, then the two checks. -/
def extractPhase (s : State) (r : Run) : State :=
  if r.phase = .header ∧ r.n = Config.headerBits then
    let t := { s with hdr := r.hsr }
    if (magicField r.hsr).toNat ≠ Config.magicValue then raise .headerNotFound t
    else if r.capi < (lengthField r.hsr).toNat then raise .invalidLength t
    else extractEnd t { r with needed := neededBits (lengthField r.hsr).toNat, phase := .payload }
  else extractEnd s r

/-- The error of an exhausted walker: `TruncatedData` (42_engine.md R176), with the parameter of D12 in phase 1. -/
def exhaustedError : Phase → ErrorKind
  | .header => Config.shortGridError
  | .payload => .truncatedData

/-- One move of an extracting run (42_engine.md R176): a pixel step with the tests after it, or the error where the walker
is exhausted. -/
def extractTick (s : State) (r : Run) : State :=
  if walkerExhausted s.W s.H r.y then raise (exhaustedError r.phase) s
  else
    let l := channelOrder.foldl (extractChannel r.needed (s.pixRead s.src r.x r.y))
      { n := r.n, hsr := r.hsr, bsr := r.bsr, pay := s.pay }
    let q := walkerNext s.W (r.x, r.y)
    extractPhase { s with pay := l.pay } { r with x := q.1, y := q.2, n := l.n, hsr := l.hsr, bsr := l.bsr }

/-! ## The engine -/

/-- One move of the running command. There is no move without a run, or for a latched word that starts none: no reachable
state is like that (log 14). -/
def engineTick (s : State) : Result :=
  match s.run with
  | none => .fault .engineStuck
  | some r =>
    match decode r.opcl with
    | .ok .embed => .next (embedTick 0 s r)
    | .ok .hide => .next (embedTick Config.headerBits s r)
    | .ok .extract => .next (extractTick s r)
    | .ok .cap => .fault .engineStuck
    | .ok .hdrser => .fault .engineStuck
    | .ok .hdrparse => .fault .engineStuck
    | .error _ => .fault .engineStuck

/-- The start of a command at pixel-step granularity (30_encoding.md R81): the commands without a pixel step end at once
(70_reset_and_hazards.md R270), and so does a `HIDE` that fails its checks (42_engine.md R178 (a)); an embedding run or an
extracting run is left running. `CAPI` receives the capacity where R195 and R176 say so. -/
def launch (i : Instr) (s : State) : Result :=
  match i with
  | .cap => execCap s
  | .hdrser => execHdrser s
  | .hdrparse => execHdrparse s
  | .embed =>
    withStorage (s.W * s.H) (bytesRead (8 * s.plen.toNat) (totalBits s.W s.H)) (accept (encode .embed) s)
  | .hide =>
    withStorage (s.W * s.H) (hideBytes s)
      (match hideCheck (maxCapacity s.W s.H) s.plen.toNat with
        | some e => raise e (accept (encode .hide) s)
        | none =>
          { s with
            status := statusStarted
            run := some { startRun (encode .hide) with capi := maxCapacity s.W s.H }
            hdr := hdrOfBits (serializeHeader s.plen.toNat) })
  | .extract =>
    withStorage (s.W * s.H) (extractBytes s)
      { s with
        status := statusStarted
        run := some { startRun (encode .extract) with capi := maxCapacity s.W s.H } }

/-! ## A running command abandoned by reset -/

/-- The bank a command abandoned in mid-run could write, at its rectangle: a free value in each pixel
(70_reset_and_hazards.md R261, log 4). -/
def State.scrambleRect (s : State) : State :=
  s.writeRect s.dst fun x y =>
    Pixel.ofWord (Config.abandonedPixelWord s.powerUp s.abandons s.dst.toNat (gridKey x y))

/-- The payload bytes an abandoned `EXTRACT` could write, `PAY[0 … Length-1]`: a free value in each (R261, log 4). -/
def State.scramblePay (s : State) : State :=
  { s with
    pay := Memory.writeList s.pay 0
      ((List.range (extractBytes s)).map (Config.abandonedByte s.powerUp s.abandons)) }

/-- The memories when a reset abandons the running command: what it could write is unspecified, the rest is kept (R261). -/
def State.scramble (s : State) : State :=
  match s.run with
  | none => s
  | some r =>
    match decode r.opcl with
    | .ok .embed => s.scrambleRect
    | .ok .hide => s.scrambleRect
    | .ok .extract => s.scramblePay
    | .ok .cap => s
    | .ok .hdrser => s
    | .ok .hdrparse => s
    | .error _ => s

/-- Reset while a command runs: it "is abandoned without an end (`STATUS` becomes 0, not `DONE`)"
(70_reset_and_hazards.md R260), and the next abandoned command draws anew. -/
def State.abandon (s : State) : State :=
  State.resetRegisters { s.scramble with abandons := s.abandons + 1 }

end Sys2Proof.Machine
end

