-- ==== Sys2Proof/Machine/Control.lean ====
section
/-! DEFINITION. What drives the engine: the write to `CMD` (30_encoding.md R81), the host's accesses while it is idle, and the
hold-off while it is busy (70_reset_and_hazards.md R266). -/

namespace Sys2Proof.Machine

/-- A write of `c` to `CMD` while idle (30_encoding.md R81): decode, then the command whole, or its start where the model goes
pixel by pixel (70_reset_and_hazards.md R266, log 2). An undefined word ends at once (60_exceptions.md R232). -/
def command (c : Word) (s : State) : Result :=
  match decode c with
  | .error _ => .next (illegalCommand c s)
  | .ok i => if s.stepwise then launch i s else exec i s

/-- A register write by the host while idle: to `CMD` it starts a command (10_state.md R25). -/
def hostWriteReg (word : Nat) (v : Word) (s : State) : Result :=
  if word = regWord .cmd then command v s else .next (s.wordWrite word v)

/-- One action of the host while no command runs (20_memory.md R52, R53, 10_state.md R28, 70_reset_and_hazards.md R260,
R261). DESIGN CHOICE, unsafe: a reset is one action, asserted and released in one step, so no access falls inside it (log 18). -/
def hostAct (a : HostAction) (s : State) : Result :=
  match a with
  | .writeReg word v => hostWriteReg word v s
  | .readReg word => .next (s.reply (.word (s.wordRead word)))
  | .writePix b x y w => .next (s.pixWrite b x.toNat y.toNat (Pixel.ofWord w))
  | .readPix b x y => .next (s.reply (.pixel (s.pixRead b x.toNat y.toNat).toWord))
  | .writePay addr v => .next (s.payWrite addr.toNat v)
  | .readPay addr => .next (s.reply (.byte (s.payRead addr.toNat)))
  | .reset => .next s.resetRegisters
  | .wait => .next s

/-- A step while idle: the host's next action, or nothing: "the engine is simply idle and all state is retained"
(60_exceptions.md R242). -/
def idleStep (s : State) : Result :=
  match s.pending with
  | [] => .next s
  | a :: rest => hostAct a { s with pending := rest }

/-- A step while a command runs (70_reset_and_hazards.md R266): a read of `STATUS` completes, a reset abandons the command,
and every other access is held off where it stands while the engine takes a move (log 5). A reset is one action here too
(log 18). -/
def busyStep (s : State) : Result :=
  match s.pending with
  | [] => engineTick s
  | .reset :: rest => .next (State.abandon { s with pending := rest })
  | .wait :: rest => engineTick { s with pending := rest }
  | .readReg word :: rest =>
    if word = regWord .status then .next (State.reply { s with pending := rest } (.word s.status.word))
    else engineTick s
  | .writeReg _ _ :: _ => engineTick s
  | .writePix _ _ _ _ :: _ => engineTick s
  | .readPix _ _ _ :: _ => engineTick s
  | .writePay _ _ :: _ => engineTick s
  | .readPay _ :: _ => engineTick s

/-- The bits of a command word, `nbits` of them, as the host hands it over; those above are zero (30_encoding.md R80). -/
def fetchWord (nbits w : Nat) : Word :=
  BitVec.ofNat 32 (w % 2 ^ nbits)

end Sys2Proof.Machine
end

