-- ==== Sys2Proof/Machine/Step.lean ====
section
/-! DEFINITION. One step of the block and its host, and how a command is placed where the next step takes it. -/

namespace Sys2Proof.Machine

/-- One step: a move of the running command, or the host's next action (70_reset_and_hazards.md R266). -/
def step (s : State) : Host.Outcome State Fault Refusal :=
  if s.status.busy then busyStep s else idleStep s

/-- `s` with a write of the command word to `CMD` as the host's next action, the engine idle, and a command taken whole: the
very next step runs it. The block fetches nothing (20_memory.md R66); this stands for the host's write (log 1). -/
def State.withFetchWord (s : State) (nbits w : Nat) : State :=
  { s with
    pending := .writeReg (regWord .cmd) (fetchWord nbits w) :: s.pending
    status := { s.status with busy := false }
    run := none
    stepwise := false }

end Sys2Proof.Machine
end

