-- ==== Sys2Proof/Machine/Script.lean ====
section
/-! DEFINITION. The host script notation (30_encoding.md R96, R97): each line as the host accesses it stands for. The block
never sees a line, only the accesses. -/

namespace Sys2Proof.Machine

/-- What an `EXPECT` line expects: `OK`, or an error by name (30_encoding.md R97). -/
abbrev Expected := Option ErrorKind

/-- The lines of 30_encoding.md R96 and R97. -/
inductive Line where
  | wr (r : Reg) (v : Word)
  | rd (r : Reg)
  | pix (b : Bank) (x y : BitVec 16) (r g bl a : Sample)
  | payb (addr : BitVec 32) (v : Byte)
  | rdpix (b : Bank) (x y : BitVec 16)
  | rdpay (addr : BitVec 32)
  | cmd (i : Instr)
  | setgrid (w h : Word)
  | fill (b : Bank) (r g bl a : Sample)
  | loadpay (bytes : List Byte)
  | loadhdr (v : BitVec 48)
  | flip
  | expect (e : Expected)
  deriving DecidableEq, Repr

/-- `STATUS` as an `EXPECT` line expects it: `0x00000002`, or `0x00000006 + 16*code` (30_encoding.md R97). -/
def expectedStatus (e : Expected) : Word :=
  match e with
  | none => 0x00000002
  | some k => 0x00000006 + 16 * (errorCode k).setWidth 32

/-- The accesses a line stands for, when the block is in state `s`: `FILL` needs the grid's bounds and `FLIP` the value read
from `CTRL` (30_encoding.md R96, R97, log 17). A command line is the write to `CMD` and one read of `STATUS`. -/
def Line.actions (s : State) : Line → List HostAction
  | .wr r v => [.writeReg (regWord r) v]
  | .rd r => [.readReg (regWord r)]
  | .pix b x y r g bl a => [.writePix b x y (Pixel.toWord { r := r, g := g, b := bl, a := a })]
  | .payb addr v => [.writePay addr v]
  | .rdpix b x y => [.readPix b x y]
  | .rdpay addr => [.readPay addr]
  | .cmd i => [.writeReg (regWord .cmd) (encode i), .readReg (regWord .status)]
  | .setgrid w h => [.writeReg (regWord .width) w, .writeReg (regWord .height) h]
  | .fill b r g bl a =>
    (scan s.W s.H).map fun q =>
      .writePix b (BitVec.ofNat 16 q.1) (BitVec.ofNat 16 q.2) (Pixel.toWord { r := r, g := g, b := bl, a := a })
  | .loadpay bytes =>
    (bytes.zipIdx.map fun p => .writePay (BitVec.ofNat 32 p.2) p.1)
      ++ [.writeReg (regWord .plen) (BitVec.ofNat 32 bytes.length)]
  | .loadhdr v =>
    [.writeReg (regWord .hdrhi) ((v.extractLsb' 32 16).setWidth 32), .writeReg (regWord .hdrlo) (v.extractLsb' 0 32)]
  | .flip => [.readReg (regWord .ctrl), .writeReg (regWord .ctrl) (s.regRead .ctrl ^^^ 1)]
  | .expect _ => [.readReg (regWord .status)]

end Sys2Proof.Machine
end

