-- ==== Sys2Proof/Safety.lean ====
section
/-! DEFINITION. What holds of every state the block can be in, and what a safe step is. -/

namespace Sys2Proof.Machine

/-- The flags of `STATUS` as 10_state.md R27 has them: never `BUSY` and `DONE` together; `ERR` exactly on a done command with
a non-zero `ECODE`; an `ECODE` only on a done command; code 6 never (60_exceptions.md R221). -/
abbrev Status.ok (st : Status) : Prop :=
  ¬(st.busy = true ∧ st.done = true) ∧ (st.err = true ↔ st.done = true ∧ st.ecode ≠ 0) ∧
    (st.done = false → st.ecode = 0) ∧ st.ecode ≠ 6

/-- A run that a command can have: of one of the three commands with pixel steps, its walker inside its bounds (10_state.md
R33), and no more bits asked for than a 32-bit Length can announce. -/
abbrev Run.ok (r : Run) : Prop :=
  (r.opcl = encode .embed ∨ r.opcl = encode .hide ∨ r.opcl = encode .extract) ∧
    r.x < 2 ^ Config.dimBits ∧ r.y ≤ 2 ^ Config.dimBits ∧ r.needed ≤ neededBits (2 ^ Config.lengthBits - 1)

/-- The three memories are in canonical form. -/
abbrev State.memoriesOk (s : State) : Prop :=
  Memory.wf s.grid0 ∧ Memory.wf s.grid1 ∧ Memory.wf s.pay

/-- The block's invariant: memories in canonical form, `STATUS` as R27 has it, hidden state exactly while a command runs
(10_state.md R20 (d), R27), the run one that a command can have, and `CAP` within 31 bits (10_state.md R23). -/
abbrev State.Inv (s : State) : Prop :=
  s.memoriesOk ∧ s.status.ok ∧ (s.status.busy = true ↔ s.run.isSome = true) ∧ (∀ r ∈ s.run, r.ok) ∧ s.cap.toNat < 2 ^ 31

/-- A safe step: the machine goes on, with no fault and no refusal. -/
def State.Safe (s : State) : Prop :=
  ∃ t, step s = .next t

end Sys2Proof.Machine
end

