-- ==== Sys2Proof/Certificates/Slice0/Obligations.lean ====
section
/-! DEFINITION. The statements made of LSBCORE, each from the rules of `spec/` it names. In every statement about a command's
outcome the equation gives the whole next state, so it is the frame as well: a field that is not named keeps its value. The
free values of unwritten memory (log 3) are opaque, so a statement about memory holds whatever they are. -/

open Sys2Proof Sys2Proof.Machine

/-! ## Decoding and the step -/

/-- R83, R84, R85: each command has exactly one word, its opcode, and every other word is `ILLEGAL`. -/
def Obligations.DecodeFollowsTheOpcodeMap : Prop :=
  ∀ c : Word,
    (decode c = .ok .cap ↔ c = 0x00000001) ∧ (decode c = .ok .hdrser ↔ c = 0x00000002) ∧
    (decode c = .ok .hdrparse ↔ c = 0x00000003) ∧ (decode c = .ok .embed ↔ c = 0x00000004) ∧
    (decode c = .ok .hide ↔ c = 0x00000005) ∧ (decode c = .ok .extract ↔ c = 0x00000006) ∧
    ((∃ e, decode c = .error e) ↔ c.toNat = 0 ∨ 7 ≤ c.toNat)

/-- Decoding and encoding agree in both directions, and a word that decodes has well-formed fields (R80, R83, R84). -/
def Obligations.DecodeAndEncodeAgree : Prop :=
  (∀ i : Instr, i.wf = true → decode (encode i) = .ok i) ∧
  ∀ (c : Word) (i : Instr), decode c = .ok i → encode i = c ∧ (CommandWord.ofWord c).wf = true

/-- A few words written out from the table of R84 and the illegal examples of 95_test_vectors.md Q7 to Q10. -/
def Obligations.SampleCommandWordsDecode : Prop :=
  decode 0b00000000000000000000000000000001 = .ok .cap ∧ decode 0b00000000000000000000000000000011 = .ok .hdrparse ∧
  decode 0b00000000000000000000000000000101 = .ok .hide ∧ decode 0b00000000000000000000000000000110 = .ok .extract ∧
  decode 0x00000000 = .error .opcodeUnassigned ∧ decode 0x0000000F = .error .opcodeUnassigned ∧
  decode 0x00000015 = .error .zeroFieldNotZero ∧ decode 0x80000001 = .error .zeroFieldNotZero

/-- R81, R266: with a write of a word to `CMD` as the host's next action and the engine idle, the step takes that action from
the list and runs the decoded command: `exec` whole, or `launch` where the model goes pixel by pixel, or the illegal word's
outcome; and what `withFetchWord` places is what the next step runs. The list and the pace are the model's own choice (log 1,
log 2). -/
def Obligations.StepRunsTheDecodedCommand : Prop :=
  (∀ (s : State) (c : Word) (rest : List HostAction), s.status.busy = false → s.pending = .writeReg (regWord .cmd) c :: rest →
    (∀ i : Instr, decode c = .ok i → s.stepwise = false → step s = exec i { s with pending := rest }) ∧
    (∀ i : Instr, decode c = .ok i → s.stepwise = true → step s = launch i { s with pending := rest }) ∧
    (∀ e : DecodeReject, decode c = .error e → step s = .next (illegalCommand c { s with pending := rest }))) ∧
  ∀ (s : State) (c : Word) (i : Instr), decode c = .ok i →
    step (s.withFetchWord 32 c.toNat)
      = exec i { s with status := { s.status with busy := false }, run := none, stepwise := false }

/-- R232: a word with a bit of `[31:4]` set or with `OPC` 0 or 7 to 15, written to `CMD`, ends at once with `ECODE = 7` and
changes nothing else. -/
def Obligations.UndefinedCommandWordEndsWithIllegalCommand : Prop :=
  ∀ (s : State) (c : Word),
    (c.extractLsb' 4 28 ≠ 0 ∨ (c.extractLsb' 0 4).toNat = 0 ∨ 7 ≤ (c.extractLsb' 0 4).toNat) →
    command c s = .next { s with status := { busy := false, done := true, err := true, ecode := 7 }, run := none }

/-! ## Bit Codec -/

/-- R110: eight bits a byte, most significant first, bytes in input order. -/
def Obligations.BytesToBitsIsMostSignificantFirst : Prop :=
  ∀ bytes : List Byte, (bytesToBits bytes).length = 8 * bytes.length ∧
    ∀ (j i : Nat) (v : Byte), bytes[j]? = some v → i ≤ 7 → (bytesToBits bytes)[8 * j + i]? = some (v.getLsbD (7 - i))

/-- R111: runs of eight bits as bytes, most significant first; a trailing run shorter than eight is discarded. -/
def Obligations.BitsToBytesGroupsRunsOfEight : Prop :=
  (∀ bits : List Bit, (bitsToBytes bits).length = bits.length / 8 ∧
    ∀ j < bits.length / 8, (bitsToBytes bits)[j]?.map BitVec.toNat
      = some (∑ i ∈ Finset.range 8, (bits[8 * j + i]?.getD false).toNat * 2 ^ (7 - i))) ∧
  ∀ bits tail : List Bit, bits.length % 8 = 0 → tail.length < 8 → bitsToBytes (bits ++ tail) = bitsToBytes bits

/-- R112: `width` bits, most significant first, of the low `width` bits of the value; a width beyond the 64 bits of the
integer domain is refused. -/
def Obligations.UintToBitsIsMostSignificantFirst : Prop :=
  (∀ value width : Nat, width ≤ 64 → ∃ bits : List Bit, uintToBitsChecked value width = some bits ∧
    uintToBits value width = bits ∧ bits.length = width ∧
    (∀ i < width, bits[i]?.map Bool.toNat = some (value / 2 ^ (width - 1 - i) % 2)) ∧
    uintToBits (value % 2 ^ width) width = bits) ∧
  ∀ value width : Nat, 64 < width → uintToBitsChecked value width = none

/-- R113: first bit most significant; up to 64 bits exactly, and of a longer sequence the last 64; leading zeros do not
matter. -/
def Obligations.BitsToUintFoldsFirstBitMostSignificant : Prop :=
  ∀ bits : List Bit,
    (bits.length ≤ 64 → bitsToUint bits
      = ∑ k ∈ Finset.range bits.length, (bits[k]?.getD false).toNat * 2 ^ (bits.length - 1 - k)) ∧
    (64 < bits.length → bitsToUint bits = bitsToUint (bits.drop (bits.length - 64))) ∧
    (bits.length < 64 → bitsToUint (false :: bits) = bitsToUint bits)

/-- R114: the round trips of the bit codec. -/
def Obligations.BitCodecRoundTrips : Prop :=
  (∀ B : List Byte, bitsToBytes (bytesToBits B) = B) ∧
  (∀ s : List Bit, bytesToBits (bitsToBytes s) = s.take (8 * (s.length / 8))) ∧
  (∀ s : List Bit, bytesToBits (bitsToBytes s) = s ↔ s.length % 8 = 0) ∧
  (∀ w v : Nat, w ≤ 64 → bitsToUint (uintToBits v w) = v % 2 ^ w) ∧
  (∀ s : List Bit, s.length ≤ 64 → uintToBits (bitsToUint s) s.length = s) ∧
  (∀ A B : List Byte, bytesToBits (A ++ B) = bytesToBits A ++ bytesToBits B) ∧
  ∀ b : Byte, bytesToBits [b] = uintToBits b.toNat 8

/-! ## Header Codec -/

/-- R90: the bits of a frame, by stream index: Magic, Length, payload, each most significant first. -/
def Obligations.FrameLayout : Prop :=
  ∀ P : List Byte, (frame P).length = 48 + 8 * P.length ∧
    (∀ k ≤ 15, (frame P)[k]? = some (Nat.testBit 0x4454 (15 - k))) ∧
    (∀ k, 16 ≤ k → k ≤ 47 → (frame P)[k]? = some (P.length.testBit (47 - k))) ∧
    ∀ (j i : Nat) (v : Byte), P[j]? = some v → i ≤ 7 → (frame P)[48 + 8 * j + i]? = some (v.getLsbD (7 - i))

/-- R134, R132: of 48 bits or more, parsing fails exactly when the first 16 differ from `0x4454` in any bit, and then with
`HeaderNotFound`; else Length is the next 32 bits, whatever they are. On fewer bits the function is refused (U4). -/
def Obligations.ParsingFailsExactlyOnAnotherMagic : Prop :=
  (∀ bits : List Bit, 48 ≤ bits.length → parseHeaderChecked bits = some (parseHeader bits) ∧
    (bitsToUint (bits.take 16) ≠ 0x4454 → parseHeader bits = .error .headerNotFound) ∧
    (bitsToUint (bits.take 16) = 0x4454 → ∃ L : BitVec 32, parseHeader bits = .ok { magic := 0x4454, length := L } ∧
      L.toNat = bitsToUint ((bits.drop 16).take 32)) ∧
    (bitsToUint (bits.take 16) = 0x4454 ↔ bits.take 16
      = [false, true, false, false, false, true, false, false, false, true, false, true, false, true, false, false])) ∧
  ∀ bits : List Bit, bits.length < 48 → parseHeaderChecked bits = none

/-- R135: what `serializeHeader` makes, `parseHeader` reads back, and the other way. -/
def Obligations.HeaderRoundTrip : Prop :=
  (∀ L < 2 ^ 32, parseHeader (serializeHeader L) = .ok { magic := 0x4454, length := BitVec.ofNat 32 L }) ∧
  ∀ (h : List Bit) (hd : Header), h.length = 48 → parseHeader h = .ok hd →
    hd.magic = 0x4454 ∧ serializeHeader hd.length.toNat = h

/-- R133: the `HDR` register and bit sequences stand for each other, bit `k` of the sequence at bit `47 - k`, and parsing
reads the register's two fields. -/
def Obligations.HdrRegisterAndSequencesAgree : Prop :=
  (∀ h : List Bit, h.length = 48 → bitsOfHdr (hdrOfBits h) = h ∧ (hdrOfBits h).toNat = bitsToUint h) ∧
  (∀ v : BitVec 48, hdrOfBits (bitsOfHdr v) = v ∧ (bitsOfHdr v).length = 48 ∧
    (∀ k < 48, (bitsOfHdr v)[k]? = some (v.getLsbD (47 - k))) ∧
    bitsToUint ((bitsOfHdr v).take 16) = (v.extractLsb' 32 16).toNat ∧
    bitsToUint (((bitsOfHdr v).drop 16).take 32) = (v.extractLsb' 0 32).toNat) ∧
  ∀ L : Nat, bitsToUint (serializeHeader L) = 0x4454 * 2 ^ 32 + L % 2 ^ 32

/-- R136: `HDRSER` always succeeds, writes `HDR` and `STATUS`, and nothing else. -/
def Obligations.HdrserWritesTheSerialisedHeader : Prop :=
  ∀ s : State, exec .hdrser s = .next { s with
    hdr := (0x4454 : BitVec 16) ++ s.plen
    status := { busy := false, done := true, err := false, ecode := 0 }, run := none }

/-- R137: `HDRPARSE` gives `PLEN` the Length of a header whose Magic is right, with no validation of the Length, and else
ends with `HeaderNotFound` and `PLEN` unchanged; `HDR` is never changed. -/
def Obligations.HdrparseReadsTheHeaderRegister : Prop :=
  ∀ s : State,
    (s.hdr.extractLsb' 32 16 = 0x4454 → exec .hdrparse s = .next { s with
      plen := s.hdr.extractLsb' 0 32
      status := { busy := false, done := true, err := false, ecode := 0 }, run := none }) ∧
    (s.hdr.extractLsb' 32 16 ≠ 0x4454 → exec .hdrparse s = .next { s with
      status := { busy := false, done := true, err := true, ecode := 1 }, run := none })

/-! ## Pixel LSB Engine -/

/-- R153: LSB replacement changes bit 0 alone. -/
def Obligations.SetLsbReplacesBitZeroAlone : Prop :=
  ∀ (v : Sample) (a b : Bit),
    (∀ i, (setLSB v b).getLsbD i = if i = 0 then b else v.getLsbD i) ∧
    (setLSB v b).toNat = v.toNat - (v.getLsbD 0).toNat + b.toNat ∧
    setLSB (setLSB v a) b = setLSB v b ∧
    setLSB 0xFF true = 0xFF ∧ setLSB 0xFF false = 0xFE ∧ setLSB 0x00 true = 0x01 ∧ setLSB 0x00 false = 0x00

/-- R151: pixel `(x, y)` has scan index `y*W + x`, channel `c` of scan index `p` has stream index `3*p + c`, and the LSB
stream has `W*H*3` bits. -/
def Obligations.StreamIndexFollowsScanOrder : Prop :=
  ∀ (G : Grid) (W H : Nat), (lsbStream G W H).length = W * H * 3 ∧
    ∀ (x y : Nat) (c : Fin 3), x < W → y < H →
      y * W + x < W * H ∧ (y * W + x) % W = x ∧ (y * W + x) / W = y ∧
      (scan W H)[y * W + x]? = some (x, y) ∧
      3 * (y * W + x) + c < W * H * 3 ∧ (3 * (y * W + x) + c) / 3 = y * W + x ∧ (3 * (y * W + x) + c) % 3 = c ∧
      (lsbStream G W H)[3 * (y * W + x) + c]? = some (((G x y).ch c).getLsbD 0)

/-- R33: from `(0, 0)` the walker visits the pixels in scan order and is exhausted after the last and not before; it never
comes back. -/
def Obligations.WalkerVisitsThePixelsInScanOrder : Prop :=
  ∀ W H p : Nat, 0 < W →
    (walkerNext W)^[p] (0, 0) = (p % W, p / W) ∧
    (walkerExhausted W H ((walkerNext W)^[p] (0, 0)).2 = true ↔ W * H ≤ p)

/-- R156 (a), (b), (c), (f), (g), R155: what `embed` does to a grid: the stream takes the bits and keeps its rest, alpha and
the high bits stay, embedding again changes nothing, and the samples that differ are those whose bit differs. -/
def Obligations.EmbedProperties : Prop :=
  ∀ (G : Grid) (W H : Nat) (bits : List Bit),
    (∀ k < min bits.length (W * H * 3), (lsbStream (embed G W bits) W H)[k]? = bits[k]?) ∧
    (∀ k, min bits.length (W * H * 3) ≤ k → k < W * H * 3 →
      (lsbStream (embed G W bits) W H)[k]? = (lsbStream G W H)[k]?) ∧
    (∀ x y, (embed G W bits x y).a = (G x y).a) ∧
    (∀ x y (c : Fin 3) (i : Nat), 1 ≤ i → ((embed G W bits x y).ch c).getLsbD i = ((G x y).ch c).getLsbD i) ∧
    embed (embed G W bits) W bits = embed G W bits ∧
    (List.range (W * H * 3)).countP (fun k =>
        decide ((embed G W bits (k / 3 % W) (k / 3 / W)).ch (Fin.ofNat 3 k) ≠ (G (k / 3 % W) (k / 3 / W)).ch (Fin.ofNat 3 k)))
      = (List.range (min bits.length (W * H * 3))).countP (fun k => decide (bits[k]? ≠ (lsbStream G W H)[k]?))

/-- R170, R155, R177: `EMBED` always succeeds: inside the rectangle channel `c` of pixel `(x, y)` takes payload bit `k = 3*(y*W
+ x) + c` where the payload has it and is copied where not, alpha is copied; every other pixel and all else stays; payload
bytes whose bits fall at or beyond stream index `T` are not read. -/
def Obligations.EmbedCommandEmbedsThePayloadBits : Prop :=
  ∀ s : State, ∃ t : State, exec .embed s = .next t ∧
    t = { s with
      grid0 := t.grid0, grid1 := t.grid1
      status := { busy := false, done := true, err := false, ecode := 0 }, run := none } ∧
    t.bank s.src = s.bank s.src ∧
    (∀ (x y : Nat) (c : Fin 3), x < s.W → y < s.H →
      (t.pixRead (1 - s.src) x y).ch c
        = if 3 * (y * s.W + x) + c < 8 * s.plen.toNat then
            setLSB ((s.pixRead s.src x y).ch c)
              ((s.payRead ((3 * (y * s.W + x) + c) / 8)).getLsbD (7 - (3 * (y * s.W + x) + c) % 8))
          else (s.pixRead s.src x y).ch c) ∧
    (∀ x y : Nat, x < s.W → y < s.H → (t.pixRead (1 - s.src) x y).a = (s.pixRead s.src x y).a) ∧
    (∀ x y : Nat, x < 2 ^ 16 → y < 2 ^ 16 → ¬(x < s.W ∧ y < s.H) →
      t.pixRead (1 - s.src) x y = s.pixRead (1 - s.src) x y) ∧
    ∀ m : List Host.Cell,
      (∀ a : Nat, a < s.plen.toNat → 8 * a < totalBits s.W s.H → State.payRead { s with pay := m } a = s.payRead a) →
      exec .embed { s with pay := m } = .next { t with pay := m }

/-- R162: the exhaustion of phase 2 cannot happen; `TruncatedData` is raised exactly on a grid of fewer than 48 eligible
channels. -/
def Obligations.TruncationOnlyOnShortGrids : Prop :=
  ∀ (G : Grid) (W H : Nat),
    (extract G W H = .error .truncatedData ↔ W * H * 3 < 48) ∧
    ∀ L : Nat, 48 ≤ W * H * 3 → L ≤ maxCapacity W H → neededBits L ≤ W * H * 3

/-- R160: what the engine's `extract` answers, test by test in its order. -/
def Obligations.ExtractFunctionFollowsItsTests : Prop :=
  ∀ (G : Grid) (W H : Nat), (W * H * 3 < 48 → extract G W H = .error .truncatedData) ∧ (48 ≤ W * H * 3 →
    (bitsToUint ((lsbStream G W H).take 16) ≠ 0x4454 → extract G W H = .error .headerNotFound) ∧
    (bitsToUint ((lsbStream G W H).take 16) = 0x4454 →
      maxCapacity W H < bitsToUint (((lsbStream G W H).drop 16).take 32) → extract G W H = .error .invalidLength) ∧
    (bitsToUint ((lsbStream G W H).take 16) = 0x4454 →
      bitsToUint (((lsbStream G W H).drop 16).take 32) ≤ maxCapacity W H →
      extract G W H = .ok (((lsbStream G W H).drop 48).take (8 * bitsToUint (((lsbStream G W H).drop 16).take 32)))))

/-- R165: embedding a frame and extracting it are inverse, on every grid that can hold the frame. -/
def Obligations.ExtractInvertsEmbedOnAFrame : Prop :=
  ∀ (G : Grid) (W H : Nat) (P : List Byte), W < 2 ^ 16 → H < 2 ^ 16 → 48 ≤ W * H * 3 → P.length ≤ maxCapacity W H →
    (frame P).length ≤ totalBits W H ∧
    (∀ k < (frame P).length, (lsbStream (embed G W (frame P)) W H)[k]? = (frame P)[k]?) ∧
    parseHeader ((lsbStream (embed G W (frame P)) W H).take 48)
      = .ok { magic := 0x4454, length := BitVec.ofNat 32 P.length } ∧
    extract (embed G W (frame P)) W H = .ok (bytesToBits P) ∧ extractService (embed G W (frame P)) W H = .ok P

/-! ## Hide/Extract Service -/

/-- R6: for 16-bit dimensions nothing exceeds the widths the rule names, and a capacity fits the Length field. -/
def Obligations.CapacityFitsItsWidths : Prop :=
  ∀ W H : Nat, W < 2 ^ 16 → H < 2 ^ 16 →
    totalBits W H ≤ 12884508675 ∧ totalBits W H < 2 ^ 34 ∧ maxCapacity W H ≤ 1610563578 ∧ maxCapacity W H < 2 ^ 31 ∧
    ∀ L < 2 ^ 32, neededBits L < 2 ^ 36

/-- R190 with the thresholds of 43_service.md: the formula of the capacity in its forms, and where it changes (the general
threshold for a capacity of at least one byte; for 0 the spec's line does not hold, see NOTES.md). -/
def Obligations.CapacityThresholds : Prop :=
  ∀ W H : Nat,
    totalBits W H = W * H * 3 ∧
    maxCapacity W H = (if W * H * 3 < 48 then 0 else (W * H * 3 - 48) / 8) ∧
    maxCapacity W H = (W * H * 3 - 48) / 8 ∧
    (maxCapacity W H : Int) = max 0 (((W * H * 3 : Nat) - 48 : Int) / 8) ∧
    totalBits W H % 3 = 0 ∧ (totalBits W H < 48 ↔ W * H ≤ 15) ∧
    (48 ≤ totalBits W H ∧ totalBits W H ≤ 54 ↔ 16 ≤ W * H ∧ W * H ≤ 18) ∧
    (1 ≤ maxCapacity W H ↔ 57 ≤ totalBits W H) ∧ (1 ≤ maxCapacity W H ↔ 19 ≤ W * H) ∧
    (∀ c, 1 ≤ c → (c ≤ maxCapacity W H ↔ 48 + 8 * c ≤ W * H * 3)) ∧
    maxCapacity 10 10 = 31 ∧ maxCapacity 4 4 = 0 ∧ maxCapacity 19 1 = 1 ∧ maxCapacity 65535 65535 = 1610563578

/-- R193: `CAP` always succeeds, writes the capacity into `CAP` and nothing else but `STATUS`; a later host write to a register
leaves it there. -/
def Obligations.CapWritesTheCapacity : Prop :=
  ∀ s : State, (∃ v : Word, exec .cap s = .next { s with
      cap := v, status := { busy := false, done := true, err := false, ecode := 0 }, run := none } ∧
      v.toNat = if s.W * s.H * 3 < 48 then 0 else (s.W * s.H * 3 - 48) / 8) ∧
    ∀ (word : Nat) (v : Word), word ≠ regWord .cmd → ∃ t : State, hostAct (.writeReg word v) s = .next t ∧ t.cap = s.cap

/-- R195, R194: `HIDE` makes its two checks in order, and when both pass embeds header and payload into the destination
bank's rectangle, writes `HDR`, and leaves all else. -/
def Obligations.HideChecksThenEmbedsTheFrame : Prop :=
  ∀ s : State,
    (maxCapacity s.W s.H = 0 ↔ s.W * s.H ≤ 18) ∧
    (maxCapacity s.W s.H = 0 → exec .hide s = .next { s with
      status := { busy := false, done := true, err := true, ecode := 5 }, run := none }) ∧
    (1 ≤ maxCapacity s.W s.H → maxCapacity s.W s.H < s.plen.toNat → exec .hide s = .next { s with
      status := { busy := false, done := true, err := true, ecode := 4 }, run := none }) ∧
    (1 ≤ maxCapacity s.W s.H → s.plen.toNat ≤ maxCapacity s.W s.H → ∃ t : State, exec .hide s = .next t ∧
      t = { s with
        grid0 := t.grid0, grid1 := t.grid1, hdr := (0x4454 : BitVec 16) ++ s.plen
        status := { busy := false, done := true, err := false, ecode := 0 }, run := none } ∧
      t.bank s.src = s.bank s.src ∧
      (∀ (x y : Nat) (c : Fin 3), x < s.W → y < s.H →
        (t.pixRead (1 - s.src) x y).ch c
          = if 3 * (y * s.W + x) + c < 48 then
              setLSB ((s.pixRead s.src x y).ch c)
                (((0x4454 : BitVec 16) ++ s.plen).getLsbD (47 - (3 * (y * s.W + x) + c)))
            else if 3 * (y * s.W + x) + c < 48 + 8 * s.plen.toNat then
              setLSB ((s.pixRead s.src x y).ch c)
                ((s.payRead ((3 * (y * s.W + x) + c - 48) / 8)).getLsbD (7 - (3 * (y * s.W + x) + c - 48) % 8))
            else (s.pixRead s.src x y).ch c) ∧
      (∀ x y : Nat, x < s.W → y < s.H → (t.pixRead (1 - s.src) x y).a = (s.pixRead s.src x y).a) ∧
      ∀ x y : Nat, x < 2 ^ 16 → y < 2 ^ 16 → ¬(x < s.W ∧ y < s.H) →
        t.pixRead (1 - s.src) x y = s.pixRead (1 - s.src) x y)

/-- R194: the command `HIDE` performs the service function `hide`: its error where it has one, and on success a destination
rectangle that reads as the grid `hide` returns. -/
def Obligations.HideCommandPerformsHide : Prop :=
  ∀ s : State, ∃ t : State, exec .hide s = .next t ∧
    match hide (s.payload s.plen.toNat) (s.grid s.src) s.W s.H with
    | .error e => t.status = statusEnded (some e) ∧ t.bank s.dst = s.bank s.dst
    | .ok G' => t.status = statusEnded none ∧ ∀ x y : Nat, x < s.W → y < s.H → t.pixRead s.dst x y = G' x y

/-- R197: `EXTRACT` by its three tests in order. `b k` is the bit of stream index `k` of the source bank, `h` the 48 first
of them as a number. -/
def Obligations.ExtractFindsValidatesAndDelivers : Prop :=
  ∀ (s : State) (h : BitVec 48) (b : Nat → Bit),
    (∀ k, b k = ((s.pixRead s.src (k / 3 % s.W) (k / 3 / s.W)).ch (Fin.ofNat 3 k)).getLsbD 0) →
    (∀ k < 48, h.getLsbD (47 - k) = b k) →
    (s.W * s.H * 3 < 48 → exec .extract s = .next { s with
      status := { busy := false, done := true, err := true, ecode := 3 }, run := none }) ∧
    (48 ≤ s.W * s.H * 3 → h.extractLsb' 32 16 ≠ 0x4454 → exec .extract s = .next { s with
      hdr := h, status := { busy := false, done := true, err := true, ecode := 1 }, run := none }) ∧
    (48 ≤ s.W * s.H * 3 → h.extractLsb' 32 16 = 0x4454 → maxCapacity s.W s.H < (h.extractLsb' 0 32).toNat →
      exec .extract s = .next { s with
        hdr := h, status := { busy := false, done := true, err := true, ecode := 2 }, run := none }) ∧
    (48 ≤ s.W * s.H * 3 → h.extractLsb' 32 16 = 0x4454 → (h.extractLsb' 0 32).toNat ≤ maxCapacity s.W s.H →
      ∃ t : State, exec .extract s = .next t ∧
        t = { s with
          hdr := h, plen := h.extractLsb' 0 32, pay := t.pay
          status := { busy := false, done := true, err := false, ecode := 0 }, run := none } ∧
        (∀ j i : Nat, j < (h.extractLsb' 0 32).toNat → i ≤ 7 → (t.payRead j).getLsbD (7 - i) = b (48 + 8 * j + i)) ∧
        ∀ a : Nat, (h.extractLsb' 0 32).toNat ≤ a → t.payRead a = s.payRead a)

/-- R199: the script `HIDE` ; `FLIP` ; `EXTRACT` gives back the payload, whatever the source bank holds, on every grid with a
capacity of at least one byte. -/
def Obligations.HideFlipExtractGivesThePayloadBack : Prop :=
  ∀ s : State, 1 ≤ maxCapacity s.W s.H → s.plen.toNat ≤ maxCapacity s.W s.H → ∃ t u : State,
    exec .hide s = .next t ∧ exec .extract (t.regWrite .ctrl (t.regRead .ctrl ^^^ 1)) = .next u ∧
    t.status = { busy := false, done := true, err := false, ecode := 0 } ∧
    u.status = { busy := false, done := true, err := false, ecode := 0 } ∧
    u.plen = s.plen ∧ ∀ j < s.plen.toNat, u.payRead j = s.payRead j

/-- R200: on a grid of 16, 17 or 18 pixels `HIDE` is always refused with `ImageTooSmall`, `EXTRACT` succeeds exactly when the
grid holds the header of an empty payload, and `EMBED` of that header's six bytes makes such a grid. -/
def Obligations.SmallGridsCarryOnlyAnEmptyPayload : Prop :=
  ∀ s : State, 16 ≤ s.W * s.H → s.W * s.H ≤ 18 →
    (∃ t : State, exec .hide s = .next t ∧ t.status.ecode = 5) ∧
    (∃ t : State, exec .extract s = .next t ∧
      (t.status.ecode = 0 ↔ (lsbStream (s.grid s.src) s.W s.H).take 48 = serializeHeader 0) ∧
      (t.status.ecode = 0 → t.plen = 0)) ∧
    (s.payload s.plen.toNat = [0x44, 0x54, 0x00, 0x00, 0x00, 0x00] → ∃ t u : State, exec .embed s = .next t ∧
      exec .extract (t.regWrite .ctrl (t.regRead .ctrl ^^^ 1)) = .next u ∧ u.status.ecode = 0 ∧ u.plen = 0)

/-! ## How commands end -/

/-- R27, R270, R12: every command ends, in every state, with `STATUS` done and not busy, `ERR` as `ECODE` says, and no hidden
state left. -/
def Obligations.EveryCommandEnds : Prop :=
  ∀ (i : Instr) (s : State), ∃ t : State, exec i s = .next t ∧ t.status.busy = false ∧ t.status.done = true ∧
    (t.status.err = true ↔ t.status.ecode ≠ 0) ∧ t.run = none

/-- R221: the `STATUS` words of the seven outcomes, the same as the host script's `EXPECT` lines give them (R97). -/
def Obligations.StatusWordsOfTheOutcomes : Prop :=
  (statusEnded none).word = 0x00000002 ∧ (statusEnded (some .headerNotFound)).word = 0x00000016 ∧
  (statusEnded (some .invalidLength)).word = 0x00000026 ∧ (statusEnded (some .truncatedData)).word = 0x00000036 ∧
  (statusEnded (some .messageTooLarge)).word = 0x00000046 ∧ (statusEnded (some .imageTooSmall)).word = 0x00000056 ∧
  (statusEnded (some .illegalCommand)).word = 0x00000076 ∧ statusStarted.word = 0x00000001 ∧
  ∀ e : Expected, expectedStatus e = (statusEnded e).word

/-- R229: which command can end how. -/
def Obligations.CommandsEndAsTabled : Prop :=
  ∀ s : State,
    (∃ t, exec .cap s = .next t ∧ t.status.ecode = 0) ∧ (∃ t, exec .hdrser s = .next t ∧ t.status.ecode = 0) ∧
    (∃ t, exec .embed s = .next t ∧ t.status.ecode = 0) ∧
    (∃ t, exec .hdrparse s = .next t ∧ t.status.ecode = if s.hdr.extractLsb' 32 16 = 0x4454 then 0 else 1) ∧
    (∃ t, exec .hide s = .next t ∧ t.status.ecode
      = if maxCapacity s.W s.H = 0 then 5 else if maxCapacity s.W s.H < s.plen.toNat then 4 else 0) ∧
    ∃ t, exec .extract s = .next t ∧ t.status.ecode
      = if totalBits s.W s.H < 48 then 3
        else if bitsToUint ((lsbStream (s.grid s.src) s.W s.H).take 16) ≠ 0x4454 then 1
        else if maxCapacity s.W s.H < bitsToUint (((lsbStream (s.grid s.src) s.W s.H).drop 16).take 32) then 2 else 0

/-- R226: a command that ends with an error has changed `STATUS` and nothing else, but for `HDR` of an `EXTRACT` that ends with
`HeaderNotFound` or `InvalidLength`. (`run` is the hidden state, gone at every end.) -/
def Obligations.FailingCommandsChangeOnlyStatus : Prop :=
  (∀ (i : Instr) (s t : State), exec i s = .next t → t.status.ecode ≠ 0 →
    if i = .extract ∧ (t.status.ecode = 1 ∨ t.status.ecode = 2) then
      t = { s with
        hdr := hdrOfBits ((lsbStream (s.grid s.src) s.W s.H).take 48), status := t.status, run := none }
    else t = { s with status := t.status, run := none }) ∧
  ∀ (c : Word) (s : State), illegalCommand c s = { s with status := (illegalCommand c s).status, run := none }

/-- R29: what each command leaves alone, over all six: no command writes the host's settings or the source bank, and each
other register and memory is written only by the commands of its column. -/
def Obligations.CommandsWriteOnlyTheirColumns : Prop :=
  ∀ (i : Instr) (s t : State), exec i s = .next t →
    t.src = s.src ∧ t.width = s.width ∧ t.height = s.height ∧ t.bank s.src = s.bank s.src ∧
    (i ≠ .cap → t.cap = s.cap) ∧ (i ≠ .hdrparse → i ≠ .extract → t.plen = s.plen) ∧
    (i ≠ .hdrser → i ≠ .hide → i ≠ .extract → t.hdr = s.hdr) ∧ (i ≠ .extract → t.pay = s.pay) ∧
    (i ≠ .embed → i ≠ .hide → t.grid0 = s.grid0 ∧ t.grid1 = s.grid1) ∧
    t.pending = s.pending ∧ t.replies = s.replies ∧ t.stepwise = s.stepwise ∧ t.powerUp = s.powerUp ∧
    t.abandons = s.abandons

/-- R29: what each command does not read: with anything outside its `r` columns changed, it ends the same, writes the same, and
leaves the rest as it was put. (What `EXTRACT` does not see of the grids is `ExtractSeesOnlyTheLsbs`.) -/
def Obligations.CommandsReadOnlyTheirColumns : Prop :=
  ∀ (s t : State) (p c : Word) (w h : BitVec 16) (b : Bank) (hd : BitVec 48) (g0 g1 : Memory Pixel) (m : List Host.Cell),
    (exec .cap s = .next t →
      exec .cap { s with cap := c, src := b, plen := p, hdr := hd, grid0 := g0, grid1 := g1, pay := m }
        = .next { t with src := b, plen := p, hdr := hd, grid0 := g0, grid1 := g1, pay := m }) ∧
    (exec .hdrser s = .next t →
      exec .hdrser { s with hdr := hd, src := b, width := w, height := h, cap := c, grid0 := g0, grid1 := g1, pay := m }
        = .next { t with src := b, width := w, height := h, cap := c, grid0 := g0, grid1 := g1, pay := m }) ∧
    (exec .hdrparse s = .next t →
      exec .hdrparse { s with plen := p, src := b, width := w, height := h, cap := c, grid0 := g0, grid1 := g1, pay := m }
        = .next { t with
            plen := if t.status.ecode = 0 then t.plen else p
            src := b, width := w, height := h, cap := c, grid0 := g0, grid1 := g1, pay := m }) ∧
    (exec .embed s = .next t → exec .embed { s with cap := c, hdr := hd } = .next { t with cap := c, hdr := hd }) ∧
    (exec .hide s = .next t → exec .hide { s with cap := c, hdr := hd }
      = .next { t with cap := c, hdr := if t.status.ecode = 0 then t.hdr else hd }) ∧
    (∀ i : Instr, i = .embed ∨ i = .hide → exec i s = .next t → ∃ u : State,
      exec i (s.setBank (1 - s.src) g0) = .next u ∧ u.status = t.status ∧ u.hdr = t.hdr ∧
      (t.status.ecode = 0 → ∀ x y : Nat, x < s.W → y < s.H → u.pixRead (1 - s.src) x y = t.pixRead (1 - s.src) x y)) ∧
    (exec .extract s = .next t → ∃ u : State, exec .extract { s with cap := c, plen := p, hdr := hd, pay := m } = .next u ∧
      u = { t with
        cap := c, plen := if t.status.ecode = 0 then t.plen else p
        hdr := if t.status.ecode = 3 then hd else t.hdr, pay := u.pay } ∧
      (t.status.ecode ≠ 0 → u.pay = m) ∧
      (t.status.ecode = 0 → ∀ a < t.plen.toNat, u.payRead a = t.payRead a))

/-- R54: every location outside the rectangle of the destination bank and outside the payload's length keeps its value
through every command. -/
def Obligations.EngineAccessIsBounded : Prop :=
  ∀ (i : Instr) (s t : State), exec i s = .next t →
    (∀ (b : Bank) (x y : Nat), x < 2 ^ 16 → y < 2 ^ 16 → ¬(b = 1 - s.src ∧ x < s.W ∧ y < s.H) →
      t.pixRead b x y = s.pixRead b x y) ∧
    ∀ a : Nat, t.plen.toNat ≤ a → t.payRead a = s.payRead a

/-- R233, R12: an error is not sticky: what a command does and how it ends does not depend on the earlier command's `STATUS`,
on hidden state, or on `CAP`. -/
def Obligations.CommandsIgnoreEarlierOutcomes : Prop :=
  ∀ (i : Instr) (s t : State) (st : Status) (r : Option Run) (cap : Word), exec i s = .next t →
    exec i { s with status := st, run := r, cap := cap } = .next (if i = .cap then t else { t with cap := cap })

/-- R150, R265 (g): extraction depends on the source bank only through bit 0 of its red, green and blue samples: banks that
agree there give the same outcome, registers and payload, whatever their alphas and high bits. -/
def Obligations.ExtractSeesOnlyTheLsbs : Prop :=
  ∀ (s : State) (g0 g1 : Memory Pixel),
    (∀ (x y : Nat) (c : Fin 3), x < s.W → y < s.H →
      ((State.pixRead { s with grid0 := g0, grid1 := g1 } s.src x y).ch c).getLsbD 0
        = ((s.pixRead s.src x y).ch c).getLsbD 0) →
    ∃ t : State, exec .extract s = .next t ∧
      exec .extract { s with grid0 := g0, grid1 := g1 } = .next { t with grid0 := g0, grid1 := g1 }

/-- R156 (e), (f), R198 (e): issuing `EMBED` or `HIDE` a second time changes nothing more: the same destination bank as
data, the same everything. -/
def Obligations.EmbeddingTwiceIsEmbeddingOnce : Prop :=
  ∀ (i : Instr) (s t : State), i = .embed ∨ i = .hide → s.memoriesOk → exec i s = .next t → exec i t = .next t

/-! ## The host's ports, reset, hold-off -/

/-- R242, R81, R266: an idle step with nothing for the host to do changes nothing; with an action at the head of the list it
takes it off and is that access, `hostAct`. A write of `CMD` is the command; a read of a pixel or a byte answers it and changes
nothing else; waiting changes nothing. `RegisterMapAccess`, the statements on the two ports and those on reset say the rest. The
list is the model's own choice (log 1). -/
def Obligations.IdleStepTakesTheHostsNextAction : Prop :=
  (∀ s : State, s.status.busy = false → s.pending = [] → step s = .next s) ∧
  (∀ (s : State) (a : HostAction) (rest : List HostAction), s.status.busy = false → s.pending = a :: rest →
    step s = hostAct a { s with pending := rest }) ∧
  (∀ (s : State) (c : Word), hostAct (.writeReg (regWord .cmd) c) s = command c s) ∧
  (∀ (s : State) (b : Bank) (x y : BitVec 16), hostAct (.readPix b x y) s
    = .next { s with replies := s.replies ++ [.pixel (s.pixRead b x.toNat y.toNat).toWord] }) ∧
  (∀ (s : State) (a : BitVec 32), hostAct (.readPay a) s
    = .next { s with replies := s.replies ++ [.byte (s.payRead a.toNat)] }) ∧
  ∀ s : State, hostAct .wait s = .next s

/-- R28, R57: the host's accesses to the registers. The offsets are those of the map. A read at a register's offset answers its
word, which shows the register's fields with the reserved bits 0, and changes nothing else. A write to a register other than
`CMD` (whose write starts a command) leaves its writable bits as written, a read-only register as it was, and every other
register and the rest of the block alone. At every other offset a read answers 0 and a write is ignored. (Word offsets, log 16;
the list of answers, log 15.) -/
def Obligations.RegisterMapAccess : Prop :=
  (regOffset .cmd = 0x00 ∧ regOffset .status = 0x04 ∧ regOffset .ctrl = 0x08 ∧ regOffset .width = 0x0C ∧
    regOffset .height = 0x10 ∧ regOffset .plen = 0x14 ∧ regOffset .cap = 0x18 ∧ regOffset .hdrlo = 0x1C ∧
    regOffset .hdrhi = 0x20 ∧ ∀ r : Reg, regOffset r = 4 * regWord r) ∧
  ∀ (s : State) (v : Word),
    (s.regRead .cmd = 0 ∧ s.regRead .status = s.status.word ∧ (s.regRead .ctrl).toNat = s.src.toNat ∧
      (s.regRead .width).toNat = s.width.toNat ∧ (s.regRead .height).toNat = s.height.toNat ∧ s.regRead .plen = s.plen ∧
      s.regRead .cap = s.cap ∧ (s.regRead .hdrlo).toNat = s.hdr.toNat % 2 ^ 32 ∧
      (s.regRead .hdrhi).toNat = s.hdr.toNat / 2 ^ 32) ∧
    (∀ r : Reg, hostAct (.readReg (regWord r)) s = .next { s with replies := s.replies ++ [.word (s.regRead r)] }) ∧
    (∀ r : Reg, r ≠ .cmd → ∃ t : State, hostAct (.writeReg (regWord r) v) s = .next t ∧
      t = { s with src := t.src, width := t.width, height := t.height, plen := t.plen, hdr := t.hdr } ∧
      (r = .ctrl → t.regRead r = v &&& 0x00000001) ∧
      (r = .width ∨ r = .height ∨ r = .hdrhi → t.regRead r = v &&& 0x0000FFFF) ∧
      (r = .plen ∨ r = .hdrlo → t.regRead r = v) ∧
      (r = .status ∨ r = .cap → t = s) ∧
      ∀ r' : Reg, r' ≠ r → t.regRead r' = s.regRead r') ∧
    ∀ word : Nat, (∀ r : Reg, word ≠ regWord r) →
      hostAct (.readReg word) s = .next { s with replies := s.replies ++ [.word 0] } ∧
      hostAct (.writeReg word v) s = .next s

/-- R52: a pixel written by the host as `{A, B, G, R}` reads back as the same word, no other pixel of either bank changes,
and nothing else of the block does. -/
def Obligations.GridPortWritesOnePixel : Prop :=
  ∀ (s : State) (b : Bank) (x y : BitVec 16) (w : BitVec 32), ∃ t : State,
    hostAct (.writePix b x y w) s = .next t ∧ t = { s with grid0 := t.grid0, grid1 := t.grid1 } ∧
    hostAct (.readPix b x y) t = .next { t with replies := t.replies ++ [.pixel w] } ∧
    (t.pixRead b x.toNat y.toNat).r = w.extractLsb' 0 8 ∧ (t.pixRead b x.toNat y.toNat).g = w.extractLsb' 8 8 ∧
    (t.pixRead b x.toNat y.toNat).b = w.extractLsb' 16 8 ∧ (t.pixRead b x.toNat y.toNat).a = w.extractLsb' 24 8 ∧
    ∀ (b' : Bank) (x' y' : BitVec 16), (b', x', y') ≠ (b, x, y) →
      t.pixRead b' x'.toNat y'.toNat = s.pixRead b' x'.toNat y'.toNat

/-- R53: a byte written by the host reads back, no other byte changes, and nothing else of the block does. -/
def Obligations.PayPortWritesOneByte : Prop :=
  ∀ (s : State) (a : BitVec 32) (v : Byte), ∃ t : State,
    hostAct (.writePay a v) s = .next t ∧ t = { s with pay := t.pay } ∧
    hostAct (.readPay a) t = .next { t with replies := t.replies ++ [.byte v] } ∧
    ∀ a' : BitVec 32, a' ≠ a → t.payRead a'.toNat = s.payRead a'.toNat

/-- R35: every register word reads 0 after reset, no command is running, and `HDRPARSE` straight after reset fails as R262
says. -/
def Obligations.ResetValues : Prop :=
  (∀ r : Reg, State.reset.regRead r = 0) ∧ State.reset.run = none ∧ State.reset.status.busy = false ∧
  State.reset.grid0 = [] ∧ State.reset.grid1 = [] ∧ State.reset.pay = [] ∧
  ∃ t, exec .hdrparse State.reset = .next t ∧ t.status.word = 0x00000016

/-- R260, R261: a reset while idle gives every register its reset value and keeps every location of every memory. -/
def Obligations.ResetWhileIdleKeepsTheMemories : Prop :=
  ∀ (s : State) (rest : List HostAction), s.status.busy = false → s.pending = .reset :: rest → ∃ t : State,
    step s = .next t ∧ (∀ r : Reg, t.regRead r = 0) ∧ t.status.busy = false ∧ t.run = none ∧ t.pending = rest ∧
    (∀ (b : Bank) (x y : Nat), t.pixRead b x y = s.pixRead b x y) ∧ ∀ a : Nat, t.payRead a = s.payRead a

/-- R260, R261: a reset while a command runs abandons it without an end, gives every register its reset value, and leaves
alone every location that the command could not write; what it could write is left to the free values (log 4). -/
def Obligations.ResetAbandonsTheRunningCommand : Prop :=
  ∀ (s : State) (r : Run) (i : Instr) (rest : List HostAction), s.status.busy = true → s.run = some r →
    r.opcl = encode i → s.pending = .reset :: rest → ∃ t : State,
      step s = .next t ∧ (∀ r' : Reg, t.regRead r' = 0) ∧ t.status.busy = false ∧ t.status.done = false ∧ t.run = none ∧
      t.pending = rest ∧
      (∀ (b : Bank) (x y : Nat), x < 2 ^ 16 → y < 2 ^ 16 →
        ¬((i = .embed ∨ i = .hide) ∧ b = 1 - s.src ∧ x < s.W ∧ y < s.H) → t.pixRead b x y = s.pixRead b x y) ∧
      ∀ a : Nat, ¬(i = .extract ∧ a < extractBytes s) → t.payRead a = s.payRead a

/-- R266: while a command runs, a read of `STATUS` returns `0x00000001` and changes nothing else; every other access stays where
it stands while the engine moves. -/
def Obligations.HostIsHeldOffWhileBusy : Prop :=
  ∀ (s : State) (a : HostAction) (rest : List HostAction), s.status.busy = true → s.status.ok → s.pending = a :: rest →
    (a = .readReg (regWord .status) → step s = .next { s with pending := rest, replies := s.replies ++ [.word 0x00000001] }) ∧
    (a ≠ .readReg (regWord .status) → a ≠ .reset → a ≠ .wait → step s = engineTick s ∧
      ∀ t : State, step s = .next t → t.pending = s.pending ∧ t.replies = s.replies)

/-! ## The whole machine -/

/-- The invariant holds at reset. -/
def Obligations.ResetMeetsTheInvariant : Prop :=
  State.reset.Inv

/-- Every step keeps the invariant, at either pace and with any host: memories in canonical form (log 12), `STATUS` as R27 has
it, hidden state exactly while BUSY (R20), the walker in its bounds (R33), `CAP` within 31 bits (R23). -/
def Obligations.StepKeepsTheInvariant : Prop :=
  ∀ s t : State, s.Inv → step s = .next t → t.Inv

/-- From every state that meets the invariant the machine goes on: no fault and no refusal, whatever the host does next
(R220, R270). -/
def Obligations.StepNeverStops : Prop :=
  ∀ s : State, s.Inv → s.Safe

/-- R266, R175, R176, R115: a command taken pixel by pixel ends, within `W*H` pixel steps and one more move, in the state the
functional rules give. -/
def Obligations.PixelStepsAgreeWithTheFunctionalRules : Prop :=
  ∀ (i : Instr) (s : State), s.status.busy = false → s.stepwise = true → s.pending = [.writeReg (regWord .cmd) (encode i)] →
    Sys2Proof.core.run (s.W * s.H + 2) s = exec i { s with pending := [] }

/-- R175: an embedding run is BUSY for exactly `W*H` pixel steps: after `k` of them it stands at pixel `k` of the scan with
`min(NB, 3*k)` bits consumed, and after the last the next move ends it. -/
def Obligations.EmbeddingRunTakesOneStepAPixel : Prop :=
  ∀ (i : Instr) (s : State) (k : Nat), i = .embed ∨ i = .hide → hideCheck (maxCapacity s.W s.H) s.plen.toNat = none ∨ i = .embed →
    s.status.busy = false → s.stepwise = true → s.pending = [.writeReg (regWord .cmd) (encode i)] → k ≤ s.W * s.H →
    (∃ (t : State) (r : Run), Sys2Proof.core.run (1 + k) s = .next t ∧ t.status.word = 0x00000001 ∧ t.run = some r ∧
      (r.x, r.y) = (walkerNext s.W)^[k] (0, 0) ∧
      r.n = min ((if i = .hide then 48 else 0) + 8 * s.plen.toNat) (3 * k)) ∧
    ∃ t : State, Sys2Proof.core.run (1 + (s.W * s.H + 1)) s = .next t ∧ t.status.busy = false

/-- R176: an extracting run is BUSY until its step count is reached: `(NEEDED + 2) div 3` pixel steps on success, 16 on a
header failure, `W*H` and the move that finds the walker exhausted when `T < 48`. -/
def Obligations.ExtractingRunStepCounts : Prop :=
  ∀ (s t : State) (k : Nat), s.status.busy = false → s.stepwise = true → s.pending = [.writeReg (regWord .cmd) (encode .extract)] →
    exec .extract { s with pending := [] } = .next t →
    ∃ u : State, Sys2Proof.core.run (1 + k) s = .next u ∧
      (u.status.busy = true ↔
        k < if t.status.ecode = 0 then (neededBits t.plen.toNat + 2) / 3
          else if t.status.ecode = 3 then s.W * s.H + 1 else 16)
end

