-- ==== Sys2Proof/Laws/Config.lean ====
section
/-! SUPPORT. The parameters at the values the spec takes (00_scope.md R5), one lemma each. The widths that stand in types
(`cw`, `pixelWordBits`, `dimBits`, `payAddrBits`, `channels`) have none: they unfold by themselves. -/

namespace Sys2Proof.Config

@[simp] theorem magicBits_eq : magicBits = 16 := rfl
@[simp] theorem lengthBits_eq : lengthBits = 32 := rfl
@[simp] theorem headerBits_eq : headerBits = 48 := rfl
@[simp] theorem uintBits_eq : uintBits = 64 := rfl
@[simp] theorem magicValue_eq : magicValue = 0x4454 := rfl
@[simp] theorem maxPixels_eq : maxPixels = 2 ^ 32 := rfl
@[simp] theorem maxPayload_eq : maxPayload = 2 ^ 32 := rfl
@[simp] theorem shortGridError_eq : shortGridError = .truncatedData := rfl

end Sys2Proof.Config
end

