-- ==== Sys2Proof/Laws/BitCodec.lean ====
section
/-! SUPPORT. The laws the codecs rest on: the value of a bit sequence without the integer domain's bound, and what each function
is in terms of it. -/

namespace Sys2Proof.Machine

/-- The value of a bit sequence as a natural number, first bit most significant (30_encoding.md R92). -/
def bitsValue (bits : List Bit) : Nat :=
  bits.foldl (fun acc b => 2 * acc + b.toNat) 0

/-- A fold from `a` puts `a` in front. -/
theorem bitsValue_foldl (bits : List Bit) (a : Nat) :
    bits.foldl (fun acc b => 2 * acc + b.toNat) a = a * 2 ^ bits.length + bitsValue bits := by
  unfold bitsValue
  induction bits generalizing a with
  | nil => simp
  | cons b bits ih =>
    simp only [List.foldl_cons, List.length_cons]
    rw [ih, ih (2 * 0 + b.toNat)]
    ring

/-- The value of two sequences one after the other. -/
theorem bitsValue_append (a b : List Bit) : bitsValue (a ++ b) = bitsValue a * 2 ^ b.length + bitsValue b := by
  rw [bitsValue, List.foldl_append, bitsValue_foldl]
  rfl

@[simp] theorem bitsValue_singleton (b : Bit) : bitsValue [b] = b.toNat := by
  simp [bitsValue]

/-- A sequence of `n` bits is below `2^n`. -/
theorem bitsValue_lt (bits : List Bit) : bitsValue bits < 2 ^ bits.length := by
  induction bits using List.reverseRecOn with
  | nil => simp [bitsValue]
  | append_singleton bits b ih =>
    rw [bitsValue_append, bitsValue_singleton]
    simp only [List.length_append, List.length_singleton, pow_succ, pow_zero, one_mul]
    have := b.toNat_lt
    omega

/-- Bit `n-1-i` of the value is bit `i` of the sequence. -/
theorem bitsValue_testBit (bits : List Bit) (i : Nat) (h : i < bits.length) :
    (bitsValue bits).testBit (bits.length - 1 - i) = bits[i] := by
  induction bits using List.reverseRecOn with
  | nil => simp at h
  | append_singleton l b ih =>
    rw [bitsValue_append, bitsValue_singleton]
    simp only [List.length_append, List.length_singleton] at h ⊢
    by_cases hi : i < l.length
    · rw [List.getElem_append_left hi, ← ih hi, show l.length + 1 - 1 - i = (l.length - 1 - i) + 1 by omega,
        Nat.testBit_succ]
      congr 1
      cases b <;> simp
      omega
    · obtain rfl : i = l.length := by omega
      cases b <;> simp

/-- The fold of `bitsToUint` is the value modulo the integer domain. -/
theorem bitsToUint_eq (bits : List Bit) : bitsToUint bits = bitsValue bits % 2 ^ 64 := by
  have key : ∀ (bits : List Bit) (a : Nat),
      bits.foldl (fun acc b => (2 * acc + b.toNat) % 2 ^ Config.uintBits) (a % 2 ^ 64)
        = bits.foldl (fun acc b => 2 * acc + b.toNat) a % 2 ^ 64 := by
    intro bits
    induction bits with
    | nil => simp
    | cons b bits ih =>
      intro a
      simp only [List.foldl_cons]
      rw [← ih, show (2 * (a % 2 ^ 64) + b.toNat) % 2 ^ Config.uintBits = (2 * a + b.toNat) % 2 ^ 64 by
        simp only [Config.uintBits]; omega]
  simpa [bitsToUint, bitsValue] using key bits 0

/-- Within the integer domain `bitsToUint` is the value. -/
theorem bitsToUint_of_le {bits : List Bit} (h : bits.length ≤ 64) : bitsToUint bits = bitsValue bits := by
  rw [bitsToUint_eq, Nat.mod_eq_of_lt]
  exact (bitsValue_lt bits).trans_le (Nat.pow_le_pow_right (by norm_num) h)

@[simp] theorem uintToBits_length (v w : Nat) : (uintToBits v w).length = w := by
  simp [uintToBits]

/-- Bit `i` of `uintToBits`. -/
theorem uintToBits_get {v w i : Nat} (h : i < w) : (uintToBits v w)[i]? = some (v.testBit (w - 1 - i)) := by
  simp [uintToBits, h]

/-- The sequence of a sequence's value. -/
theorem uintToBits_bitsValue (bits : List Bit) : uintToBits (bitsValue bits) bits.length = bits := by
  apply List.ext_getElem (by simp)
  intro i h1 h2
  simp [uintToBits, bitsValue_testBit bits i h2]

/-- One byte in front of a byte sequence. -/
theorem bytesToBits_cons (v : Byte) (bytes : List Byte) :
    bytesToBits (v :: bytes) = uintToBits v.toNat 8 ++ bytesToBits bytes := by
  simp [bytesToBits, uintToBits, BitVec.testBit_toNat]

/-- Eight bits in front of a bit sequence. -/
theorem bitsToBytes_append {a : List Bit} (b : List Bit) (ha : a.length = 8) :
    bitsToBytes (a ++ b) = BitVec.ofNat 8 (bitsValue a) :: bitsToBytes b := by
  unfold bitsToBytes
  rw [List.length_append, ha, show (8 + b.length) / 8 = b.length / 8 + 1 by omega, List.range_succ_eq_map]
  simp only [List.map_cons, List.map_map]
  congr 1
  · simp [← ha, bitsToUint_of_le (bits := a) (by omega)]
  · apply List.map_congr_left
    intro j _
    simp only [Function.comp]
    rw [show 8 * (j + 1) = a.length + 8 * j by omega, List.drop_append, List.drop_of_length_le (by omega)]
    simp

/-- Fewer than eight bits make no byte. -/
theorem bitsToBytes_short {a : List Bit} (h : a.length < 8) : bitsToBytes a = [] := by
  simp [bitsToBytes, Nat.div_eq_of_lt h]

@[simp] theorem serializeHeader_length (n : Nat) : (serializeHeader n).length = 48 := by
  simp [serializeHeader]

/-- The bits of `HDR` as its two fields stand in it (10_state.md R24). -/
theorem getLsbD_hdr (hi : BitVec 16) (lo : BitVec 32) (i : Nat) :
    BitVec.getLsbD (w := 48) (hi ++ lo) i = if i < 32 then lo.getLsbD i else hi.getLsbD (i - 32) :=
  BitVec.getLsbD_append (x := hi) (y := lo) (i := i)

end Sys2Proof.Machine
end

