-- ==== Sys2Proof/Laws/Memory.lean ====
section
/-! SUPPORT. The laws of a memory: a read after a write, and the canonical form kept by every write. -/

namespace Sys2Proof.Machine

section
variable {α : Type}

/-- A location holds the last value written to it (20_memory.md R58). -/
@[simp] theorem memory_read_write_same (m : Memory α) (a : Nat) (v : α) : (Memory.write m a v).read a = some v := by
  induction m with
  | nil => simp [Memory.write, Memory.read]
  | cons p m ih =>
    obtain ⟨k, u⟩ := p
    simp only [Memory.write]
    split
    · simp [Memory.read]
    · split
      · simp [Memory.read]
      · simp [Memory.read, *]

/-- A write leaves every other location alone. -/
theorem memory_read_write_other (m : Memory α) {a b : Nat} (v : α) (h : b ≠ a) :
    (Memory.write m a v).read b = m.read b := by
  induction m with
  | nil => simp [Memory.write, Memory.read, h]
  | cons p m ih =>
    obtain ⟨k, u⟩ := p
    simp only [Memory.write]
    split
    · subst_vars; simp [Memory.read, h]
    · split
      · simp only [Memory.read, h, if_false]
        split
        · split
          · omega
          · rw [if_pos (by omega)]
        · rfl
      · simp only [Memory.read]
        rw [ih]

/-- A read after a write, in one equation. -/
theorem memory_read_write (m : Memory α) (a b : Nat) (v : α) :
    (Memory.write m a v).read b = if b = a then some v else m.read b := by
  split
  · subst_vars; simp
  · exact memory_read_write_other m v ‹_›

/-- Every key of a written memory is the one written or an old one. -/
theorem memory_mem_write {m : Memory α} {a : Nat} {v : α} {p : Nat × α} (h : p ∈ Memory.write m a v) :
    p = (a, v) ∨ p ∈ m := by
  induction m with
  | nil => simpa [Memory.write] using h
  | cons q m ih =>
    obtain ⟨k, u⟩ := q
    simp only [Memory.write] at h
    split at h
    · rcases List.mem_cons.mp h with h | h
      · exact .inl h
      · exact .inr (List.mem_cons_of_mem _ h)
    · split at h
      · exact List.mem_cons.mp h
      · rcases List.mem_cons.mp h with h | h
        · exact .inr (h ▸ List.mem_cons_self)
        · exact (ih h).imp id (List.mem_cons_of_mem _)

/-- A write inside the address space keeps the canonical form. -/
theorem memory_wf_write {m : Memory α} (hm : Memory.wf m) {a : Nat} (ha : a < 2 ^ 32) (v : α) :
    Memory.wf (Memory.write m a v) := by
  refine ⟨?_, fun p hp => (memory_mem_write hp).elim (fun h => h ▸ ha) (hm.2 p)⟩
  replace hm := hm.1
  induction m with
  | nil => simp [Memory.write]
  | cons q m ih =>
    obtain ⟨k, u⟩ := q
    obtain ⟨hk, hm⟩ := List.pairwise_cons.mp hm
    simp only [Memory.write]
    split
    · subst_vars
      exact List.pairwise_cons.mpr ⟨hk, hm⟩
    · split
      · refine List.pairwise_cons.mpr ⟨fun p hp => ?_, List.pairwise_cons.mpr ⟨hk, hm⟩⟩
        rcases List.mem_cons.mp hp with h | h
        · subst h; simpa
        · have := hk p h
          simp only at this ⊢
          omega
      · refine List.pairwise_cons.mpr ⟨fun p hp => ?_, ih hm⟩
        rcases memory_mem_write hp with h | h
        · subst h; simp only; omega
        · exact hk p h

/-- A run of writes inside the address space keeps the canonical form. -/
theorem memory_wf_writeList {m : Memory α} (hm : Memory.wf m) {a : Nat} {vs : List α} (h : a + vs.length ≤ 2 ^ 32) :
    Memory.wf (Memory.writeList m a vs) := by
  induction vs generalizing m a with
  | nil => exact hm
  | cons v vs ih =>
    simp only [List.length_cons] at h
    exact ih (memory_wf_write hm (by omega) v) (by omega)

/-- What a run of writes leaves: the values in their places, the rest as before. -/
theorem memory_read_writeList (m : Memory α) (a b : Nat) (vs : List α) :
    (Memory.writeList m a vs).read b = if a ≤ b ∧ b < a + vs.length then vs[b - a]? else m.read b := by
  induction vs generalizing m a with
  | nil =>
    simp [Memory.writeList]
  | cons v vs ih =>
    simp only [Memory.writeList, ih, memory_read_write, List.length_cons]
    by_cases hb : b = a
    · subst hb
      simp
    · by_cases h : a + 1 ≤ b ∧ b < a + 1 + vs.length
      · rw [if_pos h, if_pos (by omega), show b - a = (b - (a + 1)) + 1 by omega, List.getElem?_cons_succ]
      · rw [if_neg h, if_neg hb, if_neg (by omega)]

/-- An empty memory is in canonical form, so reset's memories are. -/
theorem memory_wf_nil : Memory.wf ([] : Memory α) := by
  simp [Memory.wf]

/-- Two memories in canonical form that read alike everywhere are equal. -/
theorem memory_ext {m m' : Memory α} (hm : Memory.wf m) (hm' : Memory.wf m') (h : ∀ a, m.read a = m'.read a) : m = m' := by
  have low : ∀ {k : Nat} {u : α} {n : Memory α}, ((k, u) :: n).Pairwise (fun p q => p.1 < q.1) →
      ∀ a ≤ k, Memory.read n a = none := by
    intro k u n hn a ha
    cases n with
    | nil => rfl
    | cons q n =>
      have := (List.pairwise_cons.mp hn).1 q List.mem_cons_self
      obtain ⟨l, w⟩ := q
      simp only [Memory.read] at this ⊢
      rw [if_neg (by omega), if_pos (by omega)]
  replace hm := hm.1
  replace hm' := hm'.1
  induction m generalizing m' with
  | nil =>
    cases m' with
    | nil => rfl
    | cons q n =>
      have := h q.1
      simp [Memory.read] at this
  | cons p m ih =>
    obtain ⟨k, u⟩ := p
    cases m' with
    | nil =>
      have := h k
      simp [Memory.read] at this
    | cons q n =>
      obtain ⟨l, w⟩ := q
      have hkl : k = l := by
        have hk := h k
        have hl := h l
        simp only [Memory.read, if_true] at hk hl
        by_contra hne
        rcases Nat.lt_or_ge k l with hlt | hge
        · rw [if_neg hne, if_pos hlt] at hk; simp at hk
        · rw [if_neg (by omega), if_pos (by omega)] at hl; simp at hl
      subst hkl
      have huw : u = w := by simpa [Memory.read] using h k
      subst huw
      rw [ih (m' := n) ?_ (List.pairwise_cons.mp hm).2 (List.pairwise_cons.mp hm').2]
      intro a
      rcases Nat.lt_or_ge k a with hlt | hge
      · have := h a
        simpa [Memory.read, show a ≠ k by omega, show ¬a < k by omega] using this
      · rw [low hm a hge, low hm' a hge]

end

end Sys2Proof.Machine
end

