-- ==== Sys2Proof/Laws/State.lean ====
section
/-! SUPPORT. One lemma per field per update of `State`, each true by `rfl` or by the two banks, so that no later proof unfolds
a record update. -/

namespace Sys2Proof.Machine

/-- Success is an end with code 0. -/
@[simp] theorem succeed_eq (s : State) : succeed s = finish none s := rfl

/-- An error is an end with its code. -/
@[simp] theorem raise_eq (e : ErrorKind) (s : State) : raise e s = finish (some e) s := rfl

/-- The end of a command writes `STATUS` and drops the hidden state, and nothing else. -/
theorem finish_eq (e : Option ErrorKind) (s : State) : finish e s = { s with status := statusEnded e, run := none } := rfl

/-- What a command's start wrote is overwritten by its end. -/
@[simp] theorem finish_accept (e : Option ErrorKind) (c : Word) (s : State) : finish e (accept c s) = finish e s := rfl

@[simp] theorem accept_status (c : Word) (s : State) : (accept c s).status = statusStarted := rfl
@[simp] theorem accept_src (c : Word) (s : State) : (accept c s).src = s.src := rfl
@[simp] theorem accept_width (c : Word) (s : State) : (accept c s).width = s.width := rfl
@[simp] theorem accept_height (c : Word) (s : State) : (accept c s).height = s.height := rfl
@[simp] theorem accept_plen (c : Word) (s : State) : (accept c s).plen = s.plen := rfl
@[simp] theorem accept_cap (c : Word) (s : State) : (accept c s).cap = s.cap := rfl
@[simp] theorem accept_hdr (c : Word) (s : State) : (accept c s).hdr = s.hdr := rfl
@[simp] theorem accept_grid0 (c : Word) (s : State) : (accept c s).grid0 = s.grid0 := rfl
@[simp] theorem accept_grid1 (c : Word) (s : State) : (accept c s).grid1 = s.grid1 := rfl
@[simp] theorem accept_pay (c : Word) (s : State) : (accept c s).pay = s.pay := rfl
@[simp] theorem accept_run (c : Word) (s : State) : (accept c s).run = some (startRun c) := rfl
@[simp] theorem accept_pending (c : Word) (s : State) : (accept c s).pending = s.pending := rfl
@[simp] theorem accept_replies (c : Word) (s : State) : (accept c s).replies = s.replies := rfl
@[simp] theorem accept_stepwise (c : Word) (s : State) : (accept c s).stepwise = s.stepwise := rfl
@[simp] theorem accept_powerUp (c : Word) (s : State) : (accept c s).powerUp = s.powerUp := rfl
@[simp] theorem accept_abandons (c : Word) (s : State) : (accept c s).abandons = s.abandons := rfl

@[simp] theorem finish_status (e : Option ErrorKind) (s : State) : (finish e s).status = statusEnded e := rfl
@[simp] theorem finish_src (e : Option ErrorKind) (s : State) : (finish e s).src = s.src := rfl
@[simp] theorem finish_width (e : Option ErrorKind) (s : State) : (finish e s).width = s.width := rfl
@[simp] theorem finish_height (e : Option ErrorKind) (s : State) : (finish e s).height = s.height := rfl
@[simp] theorem finish_plen (e : Option ErrorKind) (s : State) : (finish e s).plen = s.plen := rfl
@[simp] theorem finish_cap (e : Option ErrorKind) (s : State) : (finish e s).cap = s.cap := rfl
@[simp] theorem finish_hdr (e : Option ErrorKind) (s : State) : (finish e s).hdr = s.hdr := rfl
@[simp] theorem finish_grid0 (e : Option ErrorKind) (s : State) : (finish e s).grid0 = s.grid0 := rfl
@[simp] theorem finish_grid1 (e : Option ErrorKind) (s : State) : (finish e s).grid1 = s.grid1 := rfl
@[simp] theorem finish_pay (e : Option ErrorKind) (s : State) : (finish e s).pay = s.pay := rfl
@[simp] theorem finish_run (e : Option ErrorKind) (s : State) : (finish e s).run = none := rfl
@[simp] theorem finish_pending (e : Option ErrorKind) (s : State) : (finish e s).pending = s.pending := rfl
@[simp] theorem finish_replies (e : Option ErrorKind) (s : State) : (finish e s).replies = s.replies := rfl
@[simp] theorem finish_stepwise (e : Option ErrorKind) (s : State) : (finish e s).stepwise = s.stepwise := rfl
@[simp] theorem finish_powerUp (e : Option ErrorKind) (s : State) : (finish e s).powerUp = s.powerUp := rfl
@[simp] theorem finish_abandons (e : Option ErrorKind) (s : State) : (finish e s).abandons = s.abandons := rfl

@[simp] theorem setBank_status (s : State) (b : Bank) (m : Memory Pixel) : (s.setBank b m).status = s.status := by unfold State.setBank; split <;> rfl
@[simp] theorem setBank_src (s : State) (b : Bank) (m : Memory Pixel) : (s.setBank b m).src = s.src := by unfold State.setBank; split <;> rfl
@[simp] theorem setBank_width (s : State) (b : Bank) (m : Memory Pixel) : (s.setBank b m).width = s.width := by unfold State.setBank; split <;> rfl
@[simp] theorem setBank_height (s : State) (b : Bank) (m : Memory Pixel) : (s.setBank b m).height = s.height := by unfold State.setBank; split <;> rfl
@[simp] theorem setBank_plen (s : State) (b : Bank) (m : Memory Pixel) : (s.setBank b m).plen = s.plen := by unfold State.setBank; split <;> rfl
@[simp] theorem setBank_cap (s : State) (b : Bank) (m : Memory Pixel) : (s.setBank b m).cap = s.cap := by unfold State.setBank; split <;> rfl
@[simp] theorem setBank_hdr (s : State) (b : Bank) (m : Memory Pixel) : (s.setBank b m).hdr = s.hdr := by unfold State.setBank; split <;> rfl
@[simp] theorem setBank_pay (s : State) (b : Bank) (m : Memory Pixel) : (s.setBank b m).pay = s.pay := by unfold State.setBank; split <;> rfl
@[simp] theorem setBank_run (s : State) (b : Bank) (m : Memory Pixel) : (s.setBank b m).run = s.run := by unfold State.setBank; split <;> rfl
@[simp] theorem setBank_pending (s : State) (b : Bank) (m : Memory Pixel) : (s.setBank b m).pending = s.pending := by unfold State.setBank; split <;> rfl
@[simp] theorem setBank_replies (s : State) (b : Bank) (m : Memory Pixel) : (s.setBank b m).replies = s.replies := by unfold State.setBank; split <;> rfl
@[simp] theorem setBank_stepwise (s : State) (b : Bank) (m : Memory Pixel) : (s.setBank b m).stepwise = s.stepwise := by unfold State.setBank; split <;> rfl
@[simp] theorem setBank_powerUp (s : State) (b : Bank) (m : Memory Pixel) : (s.setBank b m).powerUp = s.powerUp := by unfold State.setBank; split <;> rfl
@[simp] theorem setBank_abandons (s : State) (b : Bank) (m : Memory Pixel) : (s.setBank b m).abandons = s.abandons := by unfold State.setBank; split <;> rfl

@[simp] theorem pixWrite_status (s : State) (b : Bank) (x y : Nat) (px : Pixel) : (s.pixWrite b x y px).status = s.status := by simp [State.pixWrite]
@[simp] theorem pixWrite_src (s : State) (b : Bank) (x y : Nat) (px : Pixel) : (s.pixWrite b x y px).src = s.src := by simp [State.pixWrite]
@[simp] theorem pixWrite_width (s : State) (b : Bank) (x y : Nat) (px : Pixel) : (s.pixWrite b x y px).width = s.width := by simp [State.pixWrite]
@[simp] theorem pixWrite_height (s : State) (b : Bank) (x y : Nat) (px : Pixel) : (s.pixWrite b x y px).height = s.height := by simp [State.pixWrite]
@[simp] theorem pixWrite_plen (s : State) (b : Bank) (x y : Nat) (px : Pixel) : (s.pixWrite b x y px).plen = s.plen := by simp [State.pixWrite]
@[simp] theorem pixWrite_cap (s : State) (b : Bank) (x y : Nat) (px : Pixel) : (s.pixWrite b x y px).cap = s.cap := by simp [State.pixWrite]
@[simp] theorem pixWrite_hdr (s : State) (b : Bank) (x y : Nat) (px : Pixel) : (s.pixWrite b x y px).hdr = s.hdr := by simp [State.pixWrite]
@[simp] theorem pixWrite_pay (s : State) (b : Bank) (x y : Nat) (px : Pixel) : (s.pixWrite b x y px).pay = s.pay := by simp [State.pixWrite]
@[simp] theorem pixWrite_run (s : State) (b : Bank) (x y : Nat) (px : Pixel) : (s.pixWrite b x y px).run = s.run := by simp [State.pixWrite]
@[simp] theorem pixWrite_pending (s : State) (b : Bank) (x y : Nat) (px : Pixel) : (s.pixWrite b x y px).pending = s.pending := by simp [State.pixWrite]
@[simp] theorem pixWrite_replies (s : State) (b : Bank) (x y : Nat) (px : Pixel) : (s.pixWrite b x y px).replies = s.replies := by simp [State.pixWrite]
@[simp] theorem pixWrite_stepwise (s : State) (b : Bank) (x y : Nat) (px : Pixel) : (s.pixWrite b x y px).stepwise = s.stepwise := by simp [State.pixWrite]
@[simp] theorem pixWrite_powerUp (s : State) (b : Bank) (x y : Nat) (px : Pixel) : (s.pixWrite b x y px).powerUp = s.powerUp := by simp [State.pixWrite]
@[simp] theorem pixWrite_abandons (s : State) (b : Bank) (x y : Nat) (px : Pixel) : (s.pixWrite b x y px).abandons = s.abandons := by simp [State.pixWrite]

@[simp] theorem writeRect_status (s : State) (b : Bank) (G : Grid) : (s.writeRect b G).status = s.status := by simp [State.writeRect]
@[simp] theorem writeRect_src (s : State) (b : Bank) (G : Grid) : (s.writeRect b G).src = s.src := by simp [State.writeRect]
@[simp] theorem writeRect_width (s : State) (b : Bank) (G : Grid) : (s.writeRect b G).width = s.width := by simp [State.writeRect]
@[simp] theorem writeRect_height (s : State) (b : Bank) (G : Grid) : (s.writeRect b G).height = s.height := by simp [State.writeRect]
@[simp] theorem writeRect_plen (s : State) (b : Bank) (G : Grid) : (s.writeRect b G).plen = s.plen := by simp [State.writeRect]
@[simp] theorem writeRect_cap (s : State) (b : Bank) (G : Grid) : (s.writeRect b G).cap = s.cap := by simp [State.writeRect]
@[simp] theorem writeRect_hdr (s : State) (b : Bank) (G : Grid) : (s.writeRect b G).hdr = s.hdr := by simp [State.writeRect]
@[simp] theorem writeRect_pay (s : State) (b : Bank) (G : Grid) : (s.writeRect b G).pay = s.pay := by simp [State.writeRect]
@[simp] theorem writeRect_run (s : State) (b : Bank) (G : Grid) : (s.writeRect b G).run = s.run := by simp [State.writeRect]
@[simp] theorem writeRect_pending (s : State) (b : Bank) (G : Grid) : (s.writeRect b G).pending = s.pending := by simp [State.writeRect]
@[simp] theorem writeRect_replies (s : State) (b : Bank) (G : Grid) : (s.writeRect b G).replies = s.replies := by simp [State.writeRect]
@[simp] theorem writeRect_stepwise (s : State) (b : Bank) (G : Grid) : (s.writeRect b G).stepwise = s.stepwise := by simp [State.writeRect]
@[simp] theorem writeRect_powerUp (s : State) (b : Bank) (G : Grid) : (s.writeRect b G).powerUp = s.powerUp := by simp [State.writeRect]
@[simp] theorem writeRect_abandons (s : State) (b : Bank) (G : Grid) : (s.writeRect b G).abandons = s.abandons := by simp [State.writeRect]

@[simp] theorem payWrite_status (s : State) (a : Nat) (v : Byte) : (s.payWrite a v).status = s.status := rfl
@[simp] theorem payWrite_src (s : State) (a : Nat) (v : Byte) : (s.payWrite a v).src = s.src := rfl
@[simp] theorem payWrite_width (s : State) (a : Nat) (v : Byte) : (s.payWrite a v).width = s.width := rfl
@[simp] theorem payWrite_height (s : State) (a : Nat) (v : Byte) : (s.payWrite a v).height = s.height := rfl
@[simp] theorem payWrite_plen (s : State) (a : Nat) (v : Byte) : (s.payWrite a v).plen = s.plen := rfl
@[simp] theorem payWrite_cap (s : State) (a : Nat) (v : Byte) : (s.payWrite a v).cap = s.cap := rfl
@[simp] theorem payWrite_hdr (s : State) (a : Nat) (v : Byte) : (s.payWrite a v).hdr = s.hdr := rfl
@[simp] theorem payWrite_grid0 (s : State) (a : Nat) (v : Byte) : (s.payWrite a v).grid0 = s.grid0 := rfl
@[simp] theorem payWrite_grid1 (s : State) (a : Nat) (v : Byte) : (s.payWrite a v).grid1 = s.grid1 := rfl
@[simp] theorem payWrite_pay (s : State) (a : Nat) (v : Byte) : (s.payWrite a v).pay = Memory.write s.pay a v := rfl
@[simp] theorem payWrite_run (s : State) (a : Nat) (v : Byte) : (s.payWrite a v).run = s.run := rfl
@[simp] theorem payWrite_pending (s : State) (a : Nat) (v : Byte) : (s.payWrite a v).pending = s.pending := rfl
@[simp] theorem payWrite_replies (s : State) (a : Nat) (v : Byte) : (s.payWrite a v).replies = s.replies := rfl
@[simp] theorem payWrite_stepwise (s : State) (a : Nat) (v : Byte) : (s.payWrite a v).stepwise = s.stepwise := rfl
@[simp] theorem payWrite_powerUp (s : State) (a : Nat) (v : Byte) : (s.payWrite a v).powerUp = s.powerUp := rfl
@[simp] theorem payWrite_abandons (s : State) (a : Nat) (v : Byte) : (s.payWrite a v).abandons = s.abandons := rfl

@[simp] theorem reply_status (s : State) (a : Reply) : (s.reply a).status = s.status := rfl
@[simp] theorem reply_src (s : State) (a : Reply) : (s.reply a).src = s.src := rfl
@[simp] theorem reply_width (s : State) (a : Reply) : (s.reply a).width = s.width := rfl
@[simp] theorem reply_height (s : State) (a : Reply) : (s.reply a).height = s.height := rfl
@[simp] theorem reply_plen (s : State) (a : Reply) : (s.reply a).plen = s.plen := rfl
@[simp] theorem reply_cap (s : State) (a : Reply) : (s.reply a).cap = s.cap := rfl
@[simp] theorem reply_hdr (s : State) (a : Reply) : (s.reply a).hdr = s.hdr := rfl
@[simp] theorem reply_grid0 (s : State) (a : Reply) : (s.reply a).grid0 = s.grid0 := rfl
@[simp] theorem reply_grid1 (s : State) (a : Reply) : (s.reply a).grid1 = s.grid1 := rfl
@[simp] theorem reply_pay (s : State) (a : Reply) : (s.reply a).pay = s.pay := rfl
@[simp] theorem reply_run (s : State) (a : Reply) : (s.reply a).run = s.run := rfl
@[simp] theorem reply_pending (s : State) (a : Reply) : (s.reply a).pending = s.pending := rfl
@[simp] theorem reply_replies (s : State) (a : Reply) : (s.reply a).replies = s.replies ++ [a] := rfl
@[simp] theorem reply_stepwise (s : State) (a : Reply) : (s.reply a).stepwise = s.stepwise := rfl
@[simp] theorem reply_powerUp (s : State) (a : Reply) : (s.reply a).powerUp = s.powerUp := rfl
@[simp] theorem reply_abandons (s : State) (a : Reply) : (s.reply a).abandons = s.abandons := rfl

@[simp] theorem resetRegisters_status (s : State) : (s.resetRegisters).status = State.reset.status := rfl
@[simp] theorem resetRegisters_src (s : State) : (s.resetRegisters).src = 0 := rfl
@[simp] theorem resetRegisters_width (s : State) : (s.resetRegisters).width = 0 := rfl
@[simp] theorem resetRegisters_height (s : State) : (s.resetRegisters).height = 0 := rfl
@[simp] theorem resetRegisters_plen (s : State) : (s.resetRegisters).plen = 0 := rfl
@[simp] theorem resetRegisters_cap (s : State) : (s.resetRegisters).cap = 0 := rfl
@[simp] theorem resetRegisters_hdr (s : State) : (s.resetRegisters).hdr = 0 := rfl
@[simp] theorem resetRegisters_grid0 (s : State) : (s.resetRegisters).grid0 = s.grid0 := rfl
@[simp] theorem resetRegisters_grid1 (s : State) : (s.resetRegisters).grid1 = s.grid1 := rfl
@[simp] theorem resetRegisters_pay (s : State) : (s.resetRegisters).pay = s.pay := rfl
@[simp] theorem resetRegisters_run (s : State) : (s.resetRegisters).run = none := rfl
@[simp] theorem resetRegisters_pending (s : State) : (s.resetRegisters).pending = s.pending := rfl
@[simp] theorem resetRegisters_replies (s : State) : (s.resetRegisters).replies = s.replies := rfl
@[simp] theorem resetRegisters_stepwise (s : State) : (s.resetRegisters).stepwise = s.stepwise := rfl
@[simp] theorem resetRegisters_powerUp (s : State) : (s.resetRegisters).powerUp = s.powerUp := rfl
@[simp] theorem resetRegisters_abandons (s : State) : (s.resetRegisters).abandons = s.abandons := rfl

end Sys2Proof.Machine
end

