-- ==== Sys2Proof/Laws/Ops.lean ====
section
/-! SUPPORT. The laws of the shared operations: banks, pixels, payload bytes, the written rectangle, the populated storage. -/

namespace Sys2Proof.Machine

/-! ## Banks -/

/-- There are two banks. -/
theorem bank_cases (b : Bank) : b = 0 ∨ b = 1 := by
  revert b; decide

/-- The destination bank is the other bank (20_memory.md R64). -/
theorem dst_ne_src (s : State) : s.dst ≠ s.src := by
  have : ∀ b : Bank, 1 - b ≠ b := by decide
  exact this s.src

@[simp] theorem bank_setBank_same (s : State) (b : Bank) (m : Memory Pixel) : (s.setBank b m).bank b = m := by
  rcases bank_cases b with rfl | rfl <;> rfl

theorem bank_setBank_other (s : State) {b c : Bank} (m : Memory Pixel) (h : c ≠ b) :
    (s.setBank b m).bank c = s.bank c := by
  rcases bank_cases b with rfl | rfl <;> rcases bank_cases c with rfl | rfl <;> first | rfl | exact absurd rfl h

/-! ## Pixels and bytes -/

/-- The key of a pixel names its coordinates. -/
theorem gridKey_inj {x y x' y' : Nat} (hx : x < 2 ^ 16) (hx' : x' < 2 ^ 16) (h : gridKey x y = gridKey x' y') :
    x = x' ∧ y = y' := by
  simp only [gridKey, Config.dimBits] at h
  omega

/-- The key of a pixel lies inside the space. -/
theorem gridKey_lt {x y : Nat} (hx : x < 2 ^ 16) (hy : y < 2 ^ 16) : gridKey x y < 2 ^ 32 := by
  simp only [gridKey, Config.dimBits]
  omega

/-- A pixel word and the pixel it carries name each other. -/
@[simp] theorem pixel_ofWord_toWord (px : Pixel) : Pixel.ofWord px.toWord = px := by
  obtain ⟨r, g, b, a⟩ := px
  simp only [Pixel.ofWord, Pixel.toWord, Pixel.mk.injEq]
  refine ⟨?_, ?_, ?_, ?_⟩ <;> ext i hi <;>
    simp [BitVec.getElem_extractLsb', BitVec.getLsbD_append] <;> grind

@[simp] theorem pixel_toWord_ofWord (w : BitVec Config.pixelWordBits) : (Pixel.ofWord w).toWord = w := by
  simp only [Pixel.ofWord, Pixel.toWord]
  ext i hi
  simp [BitVec.getElem_append, BitVec.getElem_extractLsb']
  grind

/-- A pixel read after a pixel write. -/
theorem pixRead_pixWrite (s : State) (b c : Bank) {x y x' y' : Nat} (px : Pixel) (hx : x < 2 ^ 16) (hx' : x' < 2 ^ 16) :
    (s.pixWrite b x y px).pixRead c x' y' = if c = b ∧ x' = x ∧ y' = y then px else s.pixRead c x' y' := by
  by_cases hc : c = b
  · subst hc
    simp only [State.pixRead, State.pixWrite, bank_setBank_same, memory_read_write, setBank_powerUp]
    by_cases h : x' = x ∧ y' = y
    · obtain ⟨rfl, rfl⟩ := h; simp
    · rw [if_neg (fun hk => h (gridKey_inj hx' hx hk)), if_neg (by simpa using h)]
  · rw [if_neg (fun h => hc h.1)]
    simp only [State.pixRead, State.pixWrite, bank_setBank_other _ _ hc, setBank_powerUp]

/-- A byte read after a byte write. -/
theorem payRead_payWrite (s : State) (a b : Nat) (v : Byte) :
    (s.payWrite a v).payRead b = if b = a then v else s.payRead b := by
  simp only [State.payRead, State.payWrite, memory_read_write]
  split <;> simp

/-! ## The written rectangle -/

/-- The pixels of the scan are those of the rectangle (42_engine.md R151). -/
theorem mem_scan {W H : Nat} {q : Nat × Nat} : q ∈ scan W H ↔ q.1 < W ∧ q.2 < H := by
  obtain ⟨x, y⟩ := q
  simp only [scan, List.mem_map, List.mem_range, Prod.mk.injEq]
  constructor
  · rintro ⟨p, hp, rfl, rfl⟩
    have hW : 0 < W := Nat.pos_of_ne_zero (by rintro rfl; simp at hp)
    exact ⟨Nat.mod_lt _ hW, Nat.div_lt_of_lt_mul hp⟩
  · rintro ⟨hx, hy⟩
    have hle : W * (y + 1) ≤ W * H := Nat.mul_le_mul_left W hy
    rw [Nat.mul_add] at hle
    refine ⟨W * y + x, by omega, ?_, ?_⟩
    · rw [Nat.mul_add_mod, Nat.mod_eq_of_lt hx]
    · rw [Nat.mul_add_div (by omega), Nat.div_eq_of_lt hx, Nat.add_zero]

/-- A read after a list of pixel writes, each with the pixel of `G` at its place. -/
theorem memory_read_foldl_write (G : Grid) (qs : List (Nat × Nat)) (hq : ∀ q ∈ qs, q.1 < 2 ^ 16) (m : Memory Pixel)
    {x y : Nat} (hx : x < 2 ^ 16) :
    (qs.foldl (fun m q => Memory.write m (gridKey q.1 q.2) (G q.1 q.2)) m).read (gridKey x y)
      = if (x, y) ∈ qs then some (G x y) else m.read (gridKey x y) := by
  induction qs generalizing m with
  | nil => simp
  | cons q qs ih =>
    obtain ⟨u, v⟩ := q
    rw [List.foldl_cons, ih (fun p hp => hq p (List.mem_cons_of_mem _ hp)), memory_read_write]
    have hu : u < 2 ^ 16 := hq _ List.mem_cons_self
    by_cases h : (x, y) ∈ qs
    · simp [h]
    · by_cases hk : gridKey x y = gridKey u v
      · obtain ⟨rfl, rfl⟩ := gridKey_inj hx hu hk
        simp
      · have : (x, y) ≠ (u, v) := by rintro ⟨⟩; exact hk rfl
        simp [h, hk, this]

/-- What writing the rectangle leaves: the pixels of `G` inside it, and every other pixel of every bank as before. -/
theorem pixRead_writeRect (s : State) (b c : Bank) (G : Grid) {x y : Nat} (hx : x < 2 ^ 16) :
    (s.writeRect b G).pixRead c x y = if c = b ∧ x < s.W ∧ y < s.H then G x y else s.pixRead c x y := by
  have hW : ∀ q ∈ scan s.W s.H, q.1 < 2 ^ 16 := fun q hq => (mem_scan.mp hq).1.trans s.width.isLt
  by_cases hc : c = b
  · subst hc
    simp only [State.pixRead, State.writeRect, bank_setBank_same, setBank_powerUp, memory_read_foldl_write G _ hW _ hx,
      mem_scan, true_and]
    split <;> simp
  · rw [if_neg (fun h => hc h.1)]
    simp only [State.pixRead, State.writeRect, bank_setBank_other _ _ hc, setBank_powerUp]

/-- Writing a rectangle leaves the other bank's storage alone. -/
theorem bank_writeRect_other (s : State) {b c : Bank} (G : Grid) (h : c ≠ b) : (s.writeRect b G).bank c = s.bank c :=
  bank_setBank_other _ _ h

/-- A list of pixel writes inside the space keeps the canonical form. -/
theorem memory_wf_foldl_write (G : Grid) (qs : List (Nat × Nat)) (hq : ∀ q ∈ qs, q.1 < 2 ^ 16 ∧ q.2 < 2 ^ 16)
    {m : Memory Pixel} (hm : Memory.wf m) :
    Memory.wf (qs.foldl (fun m q => Memory.write m (gridKey q.1 q.2) (G q.1 q.2)) m) := by
  induction qs generalizing m with
  | nil => exact hm
  | cons q qs ih =>
    have h := hq q List.mem_cons_self
    exact ih (fun p hp => hq p (List.mem_cons_of_mem _ hp)) (memory_wf_write hm (gridKey_lt h.1 h.2) _)

/-- Both banks in canonical form, whichever bank is written. -/
theorem setBank_wf {s : State} {b : Bank} {m : Memory Pixel} (h0 : Memory.wf s.grid0) (h1 : Memory.wf s.grid1)
    (hm : Memory.wf m) : Memory.wf (s.setBank b m).grid0 ∧ Memory.wf (s.setBank b m).grid1 := by
  unfold State.setBank
  split <;> exact ⟨by assumption, by assumption⟩

/-- A bank in canonical form. -/
theorem bank_wf {s : State} (b : Bank) (h0 : Memory.wf s.grid0) (h1 : Memory.wf s.grid1) : Memory.wf (s.bank b) := by
  unfold State.bank
  split <;> assumption

/-- Writing a rectangle keeps both banks in canonical form. -/
theorem writeRect_wf {s : State} (b : Bank) (G : Grid) (h0 : Memory.wf s.grid0) (h1 : Memory.wf s.grid1) :
    Memory.wf (s.writeRect b G).grid0 ∧ Memory.wf (s.writeRect b G).grid1 := by
  refine setBank_wf h0 h1 (memory_wf_foldl_write G _ (fun q hq => ?_) (bank_wf b h0 h1))
  have := mem_scan.mp hq
  exact ⟨this.1.trans s.width.isLt, this.2.trans s.height.isLt⟩

/-- Writing a pixel keeps both banks in canonical form. -/
theorem pixWrite_wf {s : State} (b : Bank) {x y : Nat} (px : Pixel) (hx : x < 2 ^ 16) (hy : y < 2 ^ 16)
    (h0 : Memory.wf s.grid0) (h1 : Memory.wf s.grid1) :
    Memory.wf (s.pixWrite b x y px).grid0 ∧ Memory.wf (s.pixWrite b x y px).grid1 :=
  setBank_wf h0 h1 (memory_wf_write (bank_wf b h0 h1) (gridKey_lt hx hy) px)

/-! ## The populated storage -/

/-- Everything `withStorage` can do: the state it is given, or a refusal. -/
theorem withStorage_cases {p n : Nat} {s t : State} (h : withStorage p n s = .next t) : s = t := by
  unfold withStorage at h
  split at h
  · exact Host.Outcome.next.inj h
  · cases h

/-- A grid has less than `2^32` pixels. -/
theorem pixels_lt (s : State) : s.W * s.H < 2 ^ 32 := by
  have hW : s.W ≤ 65535 := Nat.le_of_lt_succ s.width.isLt
  have hH : s.H ≤ 65535 := Nat.le_of_lt_succ s.height.isLt
  exact (Nat.mul_le_mul hW hH).trans_lt (by norm_num)

/-- The bounds of 00_scope.md R6: a capacity fits 31 bits. -/
theorem maxCapacity_lt (s : State) : maxCapacity s.W s.H < 2 ^ 31 := by
  have hW : s.W ≤ 65535 := Nat.le_of_lt_succ s.width.isLt
  have hH : s.H ≤ 65535 := Nat.le_of_lt_succ s.height.isLt
  have h := Nat.mul_le_mul hW hH
  unfold maxCapacity totalBits Config.channels
  simp only [Config.headerBits, Config.magicBits, Config.lengthBits]
  split <;> omega

/-- With the default parameters every grid and every payload is backed by storage (92_eei_decisions.md D7). -/
theorem withStorage_next (s : State) {n : Nat} (hn : n ≤ 2 ^ 32) (t : State) : withStorage (s.W * s.H) n t = .next t :=
  if_pos ⟨(pixels_lt s).le, hn⟩

/-- `EMBED` always answers with its effect. -/
theorem execEmbed_eq (s : State) :
    execEmbed s = .next (succeed ((accept (encode .embed) s).writeRect s.dst (embed (s.grid s.src) s.W s.embedBits))) := by
  refine withStorage_next s ?_ _
  have := s.plen.isLt
  unfold bytesRead
  omega

/-- `HIDE` always answers with its effect. -/
theorem execHide_eq (s : State) : execHide s = .next (hideEffect s) := by
  refine withStorage_next s ?_ _
  unfold hideBytes
  have := s.plen.isLt
  split <;> omega

/-- `EXTRACT` finds no more bytes than the capacity. -/
theorem found_length_le {s : State} {bytes : List Byte} (h : s.found = .ok bytes) :
    bytes.length ≤ maxCapacity s.W s.H := by
  unfold State.found extractService extract at h
  simp only at h
  split at h
  · cases h
  · rename_i bits hbits
    obtain rfl := Except.ok.inj h
    split at hbits
    · cases hbits
    · split at hbits
      · cases hbits
      · split at hbits
        · cases hbits
        · split at hbits
          · cases hbits
          · obtain rfl := Except.ok.inj hbits
            simp only [bitsToBytes, List.length_map, List.length_range, List.length_drop, List.length_take, neededBits]
            omega

/-- `EXTRACT` always answers with its effect. -/
theorem execExtract_eq (s : State) : execExtract s = .next (extractEffect s) := by
  refine withStorage_next s ?_ _
  unfold extractBytes
  split
  · omega
  · have := found_length_le ‹_›
    have := maxCapacity_lt s
    omega

end Sys2Proof.Machine
end

