-- ==== Sys2Proof/Laws/Engine.lean ====
section
/-! SUPPORT. The laws of the scan, the LSB stream and the embedded grid, each in terms of one index. -/

namespace Sys2Proof.Machine

@[simp] theorem scan_length (W H : Nat) : (scan W H).length = W * H := by
  simp [scan]

/-- Pixel `p` of the scan. -/
theorem scan_get {W H p : Nat} (h : p < W * H) : (scan W H)[p]? = some (p % W, p / W) := by
  simp [scan, h]

/-- The LSBs of a list of pixels, three a pixel. -/
theorem flatMap_lsbs_length (G : Grid) (qs : List (Nat × Nat)) :
    (qs.flatMap fun q => (G q.1 q.2).lsbs).length = 3 * qs.length := by
  induction qs with
  | nil => rfl
  | cons q qs ih => simp [Pixel.lsbs]; omega

/-- Channel `c` of the `p`-th pixel of a list stands at `3*p + c`. -/
theorem flatMap_lsbs_get (G : Grid) (qs : List (Nat × Nat)) (p : Nat) (q : Nat × Nat) (c : Fin 3) (h : qs[p]? = some q) :
    (qs.flatMap fun q => (G q.1 q.2).lsbs)[3 * p + c]? = some (((G q.1 q.2).ch c).getLsbD 0) := by
  induction qs generalizing p with
  | nil => simp at h
  | cons u qs ih =>
    cases p with
    | zero =>
      obtain rfl : u = q := by simpa using h
      fin_cases c <;> simp [Pixel.lsbs, Pixel.ch]
    | succ p =>
      rw [List.flatMap_cons, List.getElem?_append_right (by simp [Pixel.lsbs]; omega)]
      simp only [Pixel.lsbs, List.length_cons, List.length_nil]
      rw [show 3 * (p + 1) + c.val - (0 + 1 + 1 + 1) = 3 * p + c.val by omega]
      exact ih p (by simpa using h)

/-- The stream by stream index. -/
theorem lsbStream_get (G : Grid) {W H k : Nat} (h : k < W * H * 3) :
    (lsbStream G W H)[k]? = some (((G (k / 3 % W) (k / 3 / W)).ch (Fin.ofNat 3 k)).getLsbD 0) := by
  have := flatMap_lsbs_get G (scan W H) (k / 3) _ (Fin.ofNat 3 k) (scan_get (p := k / 3) (by omega))
  rwa [show 3 * (k / 3) + (Fin.ofNat 3 k).val = k by simp [Fin.ofNat]; omega] at this

/-- Channel `c` of an embedded grid. -/
theorem embed_ch (G : Grid) (W : Nat) (bits : List Bit) (x y : Nat) (c : Fin 3) :
    (embed G W bits x y).ch c = embedSample ((G x y).ch c) bits[3 * (y * W + x) + c]? := by
  fin_cases c <;> rfl

/-- Alpha of an embedded grid. -/
@[simp] theorem embed_a (G : Grid) (W : Nat) (bits : List Bit) (x y : Nat) :
    (embed G W bits x y).a = (G x y).a := rfl

/-- Where the checks of `HIDE` pass. -/
theorem hideCheck_eq_none {c l : Nat} : hideCheck c l = none ↔ 1 ≤ c ∧ l ≤ c := by
  unfold hideCheck
  split <;> [skip; split] <;> simp <;> omega

end Sys2Proof.Machine
end

