-- ==== Sys2Proof/Laws/HostPort.lean ====
section
/-! SUPPORT. The register map: which register stands at a word offset, what a register access does, the two halves of `HDR`. -/

namespace Sys2Proof.Machine

/-- A register is found at its own word offset. -/
@[simp] theorem regAt_regWord (r : Reg) : regAt (regWord r) = some r := by
  cases r <;> rfl

/-- No two registers share a word. -/
theorem regWord_inj {r r' : Reg} (h : regWord r = regWord r') : r = r' := by
  have h' := congrArg regAt h
  simpa using h'

/-- A word offset of no register is unmapped. -/
theorem regAt_eq_none {word : Nat} (h : ∀ r : Reg, word ≠ regWord r) : regAt word = none := by
  unfold regAt
  split
  · exact absurd rfl (h .cmd)
  · exact absurd rfl (h .status)
  · exact absurd rfl (h .ctrl)
  · exact absurd rfl (h .width)
  · exact absurd rfl (h .height)
  · exact absurd rfl (h .plen)
  · exact absurd rfl (h .cap)
  · exact absurd rfl (h .hdrlo)
  · exact absurd rfl (h .hdrhi)
  · rfl

@[simp] theorem wordRead_regWord (s : State) (r : Reg) : s.wordRead (regWord r) = s.regRead r := by
  simp [State.wordRead]

@[simp] theorem wordWrite_regWord (s : State) (r : Reg) (v : Word) : s.wordWrite (regWord r) v = s.regWrite r v := by
  simp [State.wordWrite]

theorem wordRead_unmapped (s : State) {word : Nat} (h : ∀ r : Reg, word ≠ regWord r) : s.wordRead word = 0 := by
  simp [State.wordRead, regAt_eq_none h]

theorem wordWrite_unmapped (s : State) {word : Nat} (h : ∀ r : Reg, word ≠ regWord r) (v : Word) :
    s.wordWrite word v = s := by
  simp [State.wordWrite, regAt_eq_none h]

/-- A read of a register answers its word. -/
theorem hostAct_readReg (s : State) (r : Reg) :
    hostAct (.readReg (regWord r)) s = .next (s.reply (.word (s.regRead r))) := by
  simp [hostAct]

/-- A write to a register other than `CMD` is `regWrite`. -/
theorem hostAct_writeReg (s : State) {r : Reg} (hr : r ≠ .cmd) (v : Word) :
    hostAct (.writeReg (regWord r) v) s = .next (s.regWrite r v) := by
  have h : regWord r ≠ regWord .cmd := fun e => hr (regWord_inj e)
  simp [hostAct, hostWriteReg, h]

/-- A write to `CMD` is a command. -/
theorem hostAct_writeCmd (s : State) (c : Word) : hostAct (.writeReg (regWord .cmd) c) s = command c s := by
  simp [hostAct, hostWriteReg]

/-- A register write touches no field but the five that the host may write. -/
theorem regWrite_frame (s : State) (r : Reg) (v : Word) :
    s.regWrite r v = { s with
      src := (s.regWrite r v).src, width := (s.regWrite r v).width, height := (s.regWrite r v).height
      plen := (s.regWrite r v).plen, hdr := (s.regWrite r v).hdr } := by
  cases r <;> rfl

/-- The low half of a header put together from its two words. -/
@[simp] theorem hdr_low (hi : BitVec 16) (lo : BitVec 32) : BitVec.extractLsb' 0 32 (hi ++ lo : BitVec 48) = lo := by
  apply BitVec.eq_of_toNat_eq
  have h := lo.isLt
  rw [BitVec.extractLsb'_toNat]
  show (hi ++ lo).toNat >>> 0 % _ = _
  rw [BitVec.toNat_append, ← Nat.shiftLeft_add_eq_or_of_lt h, Nat.shiftLeft_eq, Nat.shiftRight_zero]
  omega

/-- The high half. -/
@[simp] theorem hdr_high (hi : BitVec 16) (lo : BitVec 32) : BitVec.extractLsb' 32 16 (hi ++ lo : BitVec 48) = hi := by
  apply BitVec.eq_of_toNat_eq
  have h := lo.isLt
  have h' := hi.isLt
  rw [BitVec.extractLsb'_toNat]
  show (hi ++ lo).toNat >>> 32 % _ = _
  rw [BitVec.toNat_append, ← Nat.shiftLeft_add_eq_or_of_lt h, Nat.shiftLeft_eq, Nat.shiftRight_eq_div_pow]
  omega

end Sys2Proof.Machine
end

