-- ==== Sys2Proof/Laws/PerInstr.lean ====
section
/-! SUPPORT. The statements made of each command on its own: its word is well formed and carries its opcode. -/

namespace Sys2Proof.Laws.WordShape

/-- The command is well formed, its word has a zero `ZERO` field and an assigned opcode, and the word is the opcode
(30_encoding.md R80, R84). -/
def Statement (i : Instr) : Prop :=
  i.wf = true ∧ (CommandWord.ofWord (encode i)).wf = true ∧ encode i = i.opc.setWidth 32

theorem cap : Statement .cap := by unfold Statement; decide
theorem hdrser : Statement .hdrser := by unfold Statement; decide
theorem hdrparse : Statement .hdrparse := by unfold Statement; decide
theorem embed : Statement .embed := by unfold Statement; decide
theorem hide : Statement .hide := by unfold Statement; decide
theorem extract : Statement .extract := by unfold Statement; decide

end Sys2Proof.Laws.WordShape
end

