-- ==== Sys2Proof/Laws/Step.lean ====
section
/-! SUPPORT. Everything a step can do, said once: each lemma lists the cases of "if it answers next `t`". -/

namespace Sys2Proof.Machine

/-- A decoded word of a command is that command. -/
@[simp] theorem decode_encode_eq (i : Instr) : decode (encode i) = .ok i := by
  cases i <;> rfl

/-- A move of the running command is a move of an embedding or of an extracting run. -/
theorem engineTick_cases {s t : State} (h : engineTick s = .next t) : ∃ r, s.run = some r ∧
    ((decode r.opcl = .ok .embed ∧ t = embedTick 0 s r) ∨ (decode r.opcl = .ok .hide ∧ t = embedTick 48 s r) ∨
      (decode r.opcl = .ok .extract ∧ t = extractTick s r)) := by
  unfold engineTick at h
  split at h
  · cases h
  · rename_i r hr
    refine ⟨r, hr, ?_⟩
    split at h <;> cases h <;> simp_all

/-- A write to `CMD` ends as an illegal word, runs a command, or starts one. -/
theorem command_cases {c : Word} {s t : State} (h : command c s = .next t) :
    (∃ e, decode c = .error e ∧ t = illegalCommand c s) ∨
      ∃ i, decode c = .ok i ∧ ((s.stepwise = false ∧ exec i s = .next t) ∨ (s.stepwise = true ∧ launch i s = .next t)) := by
  unfold command at h
  split at h
  · cases h; exact .inl ⟨_, ‹_›, rfl⟩
  · rename_i i hi
    by_cases hs : s.stepwise = true
    · exact .inr ⟨i, hi, .inr ⟨hs, by rwa [if_pos hs] at h⟩⟩
    · exact .inr ⟨i, hi, .inl ⟨by simpa using hs, by rwa [if_neg hs] at h⟩⟩

/-- A step is a move of the running command, a completed read of `STATUS`, an abandoned command, an action of the host while
idle, or nothing. -/
theorem step_cases {s t : State} (h : step s = .next t) :
    (s.status.busy = true ∧ (engineTick s = .next t ∨
      ∃ a rest, s.pending = a :: rest ∧
        ((a = .wait ∧ engineTick { s with pending := rest } = .next t) ∨
          (a = .reset ∧ t = State.abandon { s with pending := rest }) ∨
          (a = .readReg (regWord .status) ∧
            t = State.reply { s with pending := rest } (.word s.status.word))))) ∨
    (s.status.busy = false ∧ ((s.pending = [] ∧ t = s) ∨
      ∃ a rest, s.pending = a :: rest ∧ hostAct a { s with pending := rest } = .next t)) := by
  unfold step at h
  by_cases hb : s.status.busy = true
  · rw [if_pos hb] at h
    refine .inl ⟨hb, ?_⟩
    unfold busyStep at h
    split at h
    case h_2 hp => cases h; exact .inr ⟨_, _, hp, .inr (.inl ⟨rfl, rfl⟩)⟩
    case h_3 hp => exact .inr ⟨_, _, hp, .inl ⟨rfl, h⟩⟩
    case h_4 hp =>
      split at h
      · subst_vars; cases h; exact .inr ⟨_, _, hp, .inr (.inr ⟨rfl, rfl⟩)⟩
      · exact .inl h
    all_goals exact .inl h
  · rw [if_neg hb] at h
    refine .inr ⟨by simpa using hb, ?_⟩
    unfold idleStep at h
    split at h
    · cases h; exact .inl ⟨‹_›, rfl⟩
    · exact .inr ⟨_, _, ‹_›, h⟩

end Sys2Proof.Machine
end

