-- ==== Sys2Proof/Tests/Slice0.lean ====
section
/-! SUPPORT. Tests of the model against the spec's own words and vectors (`spec/95_test_vectors.md`; the source of each expected
value stands in its comment), and for each statement with hypotheses a witness that meets them. -/

namespace Sys2Proof.Tests

open Sys2Proof.Machine

set_option Elab.async false

/-! ## Helpers: small states -/

/-- A pixel from four numbers, `R G B A`. -/
def px (r g b a : Nat) : Pixel :=
  { r := BitVec.ofNat 8 r, g := BitVec.ofNat 8 g, b := BitVec.ofNat 8 b, a := BitVec.ofNat 8 a }

/-- The storage of a bank in which the `W × H` rectangle has been written with `f`. -/
def gridOf (W H : Nat) (f : Nat → Nat → Pixel) : Memory Pixel :=
  (List.range H).flatMap fun y => (List.range W).map fun x => (gridKey x y, f x y)

/-- The state after reset with the bounds, `PLEN`, bank 0 and the first bytes of `PAY` set. -/
def st (W H plen : Nat) (g : Memory Pixel) (bytes : List Byte) : State :=
  { State.reset with
    width := BitVec.ofNat 16 W, height := BitVec.ofNat 16 H, plen := BitVec.ofNat 32 plen
    grid0 := g, pay := bytes.zipIdx.map fun p => (p.2, p.1) }

/-- `s` with one host action pending. -/
def say (s : State) (a : HostAction) (stepwise : Bool := false) : State :=
  { s with pending := [a], stepwise := stepwise }

/-- Whether a command ends with the given error code. -/
def endsWith (i : Instr) (s : State) (code : Nat) : Bool :=
  match exec i s with
  | .next t => t.status.ecode.toNat == code
  | _ => false

theorem endsWith_next {i : Instr} {s : State} {code : Nat} (h : endsWith i s code = true) :
    ∃ t, exec i s = .next t ∧ t.status.ecode.toNat = code := by
  unfold endsWith at h
  split at h
  · exact ⟨_, ‹_›, by simpa using h⟩
  · cases h

/-- The base grid of vector E3. -/
def baseE3 (x y : Nat) : Pixel :=
  px (0x10 + (4 * y + x)) (0x80 + (4 * y + x)) (0xF0 - (4 * y + x)) (0x40 + (4 * y + x))

/-- The table of vector E3, rows 0 and 1, after `HIDE`. -/
def rowsE3a : List Pixel :=
  [px 0x10 0x81 0xF0 0x40, px 0x10 0x80 0xEF 0x41, px 0x12 0x82 0xEE 0x42, px 0x13 0x82 0xED 0x43,
   px 0x14 0x85 0xEC 0x44, px 0x14 0x84 0xEA 0x45, px 0x16 0x86 0xEA 0x46, px 0x16 0x86 0xE8 0x47]

/-- Rows 2 and 3. -/
def rowsE3b : List Pixel :=
  [px 0x18 0x88 0xE8 0x48, px 0x18 0x88 0xE6 0x49, px 0x1A 0x8A 0xE6 0x4A, px 0x1A 0x8A 0xE4 0x4B,
   px 0x1C 0x8C 0xE4 0x4C, px 0x1C 0x8C 0xE2 0x4D, px 0x1E 0x8E 0xE2 0x4E, px 0x1E 0x8E 0xE1 0x4F]

/-- Row 4. -/
def rowsE3c : List Pixel :=
  [px 0x21 0x90 0xE1 0x50, px 0x20 0x90 0xDF 0x51, px 0x22 0x93 0xDE 0x52, px 0x23 0x93 0xDD 0x53]

/-- The bank of vector E3 after `HIDE`. -/
def hiddenE3 : Memory Pixel :=
  gridOf 4 5 fun x y => (rowsE3a ++ rowsE3b ++ rowsE3c).getD (4 * y + x) (px 0 0 0 0)

/-- The bank of vector E4.3: the E3 result except pixel 15 `= 1E 8F E0 4F` and pixels 16 to 19 as the base. -/
def crafted : Memory Pixel :=
  gridOf 4 5 fun x y =>
    if 4 * y + x < 15 then (rowsE3a ++ rowsE3b).getD (4 * y + x) (px 0 0 0 0)
    else if 4 * y + x = 15 then px 0x1E 0x8F 0xE0 0x4F else baseE3 x y

/-- A grid of one colour. -/
def plain (W H : Nat) : Memory Pixel :=
  gridOf W H fun _ _ => px 0 0 0 0xFF

/-- A grid that carries the first bits of a header with Magic and Length as given. -/
def carrier (W H magic len : Nat) : Memory Pixel :=
  gridOf W H fun x y => embed (fun _ _ => px 0 0 0 0xFF) W (uintToBits magic 16 ++ uintToBits len 32) x y

/-! ## WellFormed: for each check an ill-formed word -/

/-- R80, R85: a bit of `[31:4]` set. The opcode is fine, the word is not. -/
theorem test_zero_field_refused :
    CommandWord.zeroOk { zero := 1, opc := 5 } = false ∧ CommandWord.opcOk { zero := 1, opc := 5 } = true ∧
      CommandWord.wf { zero := 1, opc := 5 } = false := by decide

/-- R85: `OPC = 0` and `OPC = 7`, `15` are illegal; 1 and 6 are the ends of the legal range. -/
theorem test_opcode_refused :
    CommandWord.wf { zero := 0, opc := 0 } = false ∧ CommandWord.wf { zero := 0, opc := 7 } = false ∧
      CommandWord.wf { zero := 0, opc := 15 } = false ∧ CommandWord.wf { zero := 0, opc := 1 } = true ∧
      CommandWord.wf { zero := 0, opc := 6 } = true := by decide

/-- R82: there is no ill-formed instruction, each of the six is well formed. -/
theorem test_every_command_well_formed : ∀ i : Instr, i.wf = true := by
  intro i; cases i <;> rfl

/-! ## Decoding: one word for each command, from the map of R84 -/

theorem test_decode_cap : decode 0b00000000000000000000000000000001 = .ok .cap := by rfl
theorem test_decode_hdrser : decode 0b00000000000000000000000000000010 = .ok .hdrser := by rfl
theorem test_decode_hdrparse : decode 0b00000000000000000000000000000011 = .ok .hdrparse := by rfl
theorem test_decode_embed : decode 0b00000000000000000000000000000100 = .ok .embed := by rfl
theorem test_decode_hide : decode 0b00000000000000000000000000000101 = .ok .hide := by rfl
theorem test_decode_extract : decode 0b00000000000000000000000000000110 = .ok .extract := by rfl

/-- Vectors Q7 to Q10. -/
theorem test_decode_illegal : decode 0x00000000 = .error .opcodeUnassigned ∧ decode 0x00000007 = .error .opcodeUnassigned ∧
    decode 0x0000000F = .error .opcodeUnassigned ∧ decode 0x00000015 = .error .zeroFieldNotZero ∧
    decode 0x80000001 = .error .zeroFieldNotZero := ⟨rfl, rfl, rfl, rfl, rfl⟩

/-- The host's view: 32 bits a row (`spec/opcode_table.json`), and a placed word is what the next step runs. -/
theorem test_table_word : decodeTableWord 32 5 = some .hide ∧ decodeTableWord 32 0 = none := by decide

theorem test_fetch_word :
    step (State.reset.withFetchWord 32 3) = exec .hdrparse { State.reset with pending := [] } := by rfl

/-! ## The commands -/

/-- Vector S1: 10 × 10 has 31 bytes. -/
theorem test_cap_ten_by_ten : ∃ t, exec .cap (st 10 10 0 [] []) = .next t ∧ t.cap = 31 := ⟨_, rfl, by decide⟩

/-- Vector S1: the largest grid. -/
theorem test_cap_largest_grid : ∃ t, exec .cap (st 65535 65535 0 [] []) = .next t ∧ t.cap = 1610563578 :=
  ⟨_, rfl, by decide⟩

/-- Vector H3.1. -/
theorem test_hdrser_five : ∃ t, exec .hdrser (st 0 0 5 [] []) = .next t ∧ t.regRead .hdrhi = 0x4454 ∧
    t.regRead .hdrlo = 5 ∧ t.plen = 5 ∧ t.status.word = 0x00000002 := ⟨_, rfl, by decide +kernel⟩

/-- Vector H3.2. -/
theorem test_hdrser_longest : ∃ t, exec .hdrser (st 0 0 0xFFFFFFFF [] []) = .next t ∧ t.hdr = 0x4454FFFFFFFF :=
  ⟨_, rfl, by decide +kernel⟩

/-- Vectors H4.4 and H4.1: reserved bits of `HDRHI` are dropped, then the header parses. -/
theorem test_hdrparse_after_host_write :
    endsWith .hdrparse ((State.reset.regWrite .hdrhi 0xABCD4454).regWrite .hdrlo 5) 0 = true ∧
      ((State.reset.regWrite .hdrhi 0xABCD4454).regRead .hdrhi) = 0x00004454 := by decide +kernel

/-- Vector H4.2: one Magic bit wrong, `PLEN` keeps its 9. -/
theorem test_hdrparse_wrong_magic :
    ∃ t, exec .hdrparse { st 0 0 9 [] [] with hdr := 0x445500000005 } = .next t ∧ t.status.word = 0x00000016 ∧ t.plen = 9 :=
  ⟨_, rfl, by decide +kernel⟩

/-- R170's example: `LOADPAY 0xB0` on 2 × 1; the last two of eight bits are dropped. -/
theorem test_embed_partial : ∃ t,
    exec .embed (st 2 1 1 (gridOf 2 1 fun x _ => if x = 0 then px 0x10 0x11 0x12 0x80 else px 0x13 0x14 0x15 0x81) [0xB0])
      = .next t ∧
    t.grid1 = gridOf 2 1 fun x _ => if x = 0 then px 0x11 0x10 0x13 0x80 else px 0x13 0x14 0x14 0x81 :=
  ⟨_, rfl, by decide +kernel⟩

/-- Vector E5: the silent early stop, and each bank row by row. -/
theorem test_embed_stops_early : ∃ t,
    exec .embed (st 2 2 2 (gridOf 2 2 fun x y => [px 2 4 6 8, px 10 12 14 16, px 1 3 5 7, px 9 11 13 15].getD (2 * y + x) (px 0 0 0 0))
      [0xFF, 0x00]) = .next t ∧ t.status.word = 0x00000002 ∧
    t.grid1 = gridOf 2 2 fun x y => [px 3 5 7 8, px 11 13 15 16, px 1 3 4 7, px 8 10 12 15].getD (2 * y + x) (px 0 0 0 0) :=
  ⟨_, rfl, by decide +kernel⟩

/-- Vector E3: the whole destination bank. -/
theorem test_hide_mixed_samples : ∃ t, exec .hide (st 4 5 1 (gridOf 4 5 baseE3) [0xA5]) = .next t ∧
    t.grid1 = hiddenE3 ∧ t.hdr = 0x445400000001 ∧ t.status.word = 0x00000002 := ⟨_, rfl, by decide +kernel⟩

/-- Vector S3: on 4 × 4 with a byte to hide the error is `ImageTooSmall`, not `MessageTooLarge`. -/
theorem test_hide_image_too_small : ∃ t, exec .hide (st 4 4 1 [] []) = .next t ∧ t.status.word = 0x00000056 :=
  ⟨_, rfl, by decide +kernel⟩

/-- Vector E3, E4.2: the hidden byte comes back, and nothing beyond it is written. -/
theorem test_extract_hidden_byte : ∃ t, exec .extract (st 4 5 7 hiddenE3 []) = .next t ∧ t.plen = 1 ∧ t.pay = [(0, 0xA5)] ∧
    t.hdr = 0x445400000001 ∧ t.status.word = 0x00000002 := ⟨_, rfl, by decide +kernel⟩

/-- Vector E4.3: a Length of 2 where one byte fits. -/
theorem test_extract_invalid_length : ∃ t, exec .extract (st 4 5 7 crafted []) = .next t ∧ t.plen = 7 ∧ t.pay = [] ∧
    t.hdr = 0x445400000002 ∧ t.status.word = 0x00000026 := ⟨_, rfl, by decide +kernel⟩

/-! ## The codec and the registers -/

/-- Vectors B1.3, B2.5, B3.6, B4.6 and H2.6. -/
theorem test_codec :
    bytesToBits [0x80, 0x01]
      = [true, false, false, false, false, false, false, false, false, false, false, false, false, false, false, true] ∧
    bitsToBytes [true, false, true, false, false, true, false, true, false, false, true, true, true, true, false] = [0xA5] ∧
    uintToBits 0x4454 8 = [false, true, false, true, false, true, false, false] ∧
    bitsToUint (true :: List.replicate 64 false) = 0 ∧
    parseHeader (uintToBits 0x544400000005 48) = .error .headerNotFound := by decide +kernel

/-- R28's table of byte offsets, and Q13: reserved bits of `CTRL` are dropped. -/
theorem test_register_map :
    [Reg.cmd, .status, .ctrl, .width, .height, .plen, .cap, .hdrlo, .hdrhi].map regOffset
      = [0x00, 0x04, 0x08, 0x0C, 0x10, 0x14, 0x18, 0x1C, 0x20] ∧
    (State.reset.wordWrite 2 0xFFFFFFFF).wordRead 2 = 0x00000001 := by decide

/-- R97 with X1's word: `FLIP` inverts bit 0 of `CTRL`, and a pixel line writes the word `{A, B, G, R}`. -/
theorem test_script_lines :
    Line.actions State.reset .flip = [.readReg 2, .writeReg 2 1] ∧
    Line.actions State.reset (.pix 1 0 0 0xFE 0xFF 0xFE 0xFF) = [.writePix 1 0 0 0xFFFEFFFE] ∧
    Line.actions State.reset (.loadhdr 0x445400000005) = [.writeReg 8 0x4454, .writeReg 7 5] := by decide +kernel

/-! ## Witnesses: states and operands that meet a statement's hypotheses -/

/-- A state in which a command runs: the k-th move of `i` started on `s` at the stepwise pace. -/
def running (i : Instr) (s : State) (k : Nat) : State :=
  match Sys2Proof.core.run (1 + k) (say s (.writeReg (regWord .cmd) (encode i)) true) with
  | .next t => t
  | _ => s

/-- A 19 × 1 grid, capacity one byte, with the byte `0xFF` to hide. -/
def oneByte : State :=
  st 19 1 1 (plain 19 1) [0xFF]

theorem witness_DecodeAndEncodeAgree :
    Instr.wf .extract = true ∧ decode 0x00000006 = .ok .extract := ⟨rfl, rfl⟩

/-- Both paces, an illegal word, and a word that decodes. -/
theorem witness_StepRunsTheDecodedCommand :
    (say oneByte (.writeReg (regWord .cmd) 5)).status.busy = false ∧
    (say oneByte (.writeReg (regWord .cmd) 5)).pending = .writeReg (regWord .cmd) 5 :: [] ∧ decode 5 = .ok .hide ∧
    (say oneByte (.writeReg (regWord .cmd) 5)).stepwise = false ∧ (say oneByte (.writeReg (regWord .cmd) 5) true).stepwise = true ∧
    decode 0x15 = .error .zeroFieldNotZero := ⟨rfl, rfl, rfl, rfl, rfl, rfl⟩

/-- Each way to be illegal, at the ends of its range: bit 4, bit 31, `OPC` 0, 7 and 15. -/
theorem witness_UndefinedCommandWordEndsWithIllegalCommand :
    (0x00000010 : Word).extractLsb' 4 28 ≠ 0 ∧ (0x80000001 : Word).extractLsb' 4 28 ≠ 0 ∧
    ((0x00000000 : Word).extractLsb' 0 4).toNat = 0 ∧ ((0x00000007 : Word).extractLsb' 0 4).toNat = 7 ∧
    ((0x0000000F : Word).extractLsb' 0 4).toNat = 15 := by decide

/-- Also of `FrameLayout`: the last byte of two, its first and last bit. -/
theorem witness_BytesToBitsIsMostSignificantFirst :
    ([0x80, 0x01] : List Byte)[1]? = some 0x01 ∧ (0 : Nat) ≤ 7 ∧ (bytesToBits [0x80, 0x01])[8 * 1 + 7]? = some true ∧
    (frame [0x80, 0x01])[48 + 8 * 1 + 7]? = some true ∧ (frame [0x80, 0x01])[47]? = some false ∧
    (frame [0x80, 0x01])[46]? = some true ∧ (frame [0x80, 0x01])[1]? = some true := by decide +kernel

/-- A tail of seven bits, and one of none. -/
theorem witness_BitsToBytesGroupsRunsOfEight :
    (List.replicate 8 true).length % 8 = 0 ∧ (List.replicate 7 true).length < 8 ∧ ([] : List Bit).length < 8 ∧
    (0 : Nat) < (List.replicate 8 true).length / 8 ∧ bitsToBytes (List.replicate 15 true) = [0xFF] := by decide +kernel

/-- The ends of the integer domain: widths 0, 64 and 65. -/
theorem witness_UintToBitsIsMostSignificantFirst :
    (0 : Nat) ≤ 64 ∧ (63 : Nat) < 64 ∧ (64 : Nat) < 65 ∧ (uintToBitsChecked 1 64).isSome = true ∧
    uintToBitsChecked 1 65 = none := by decide +kernel

/-- Lengths 63, 64 and 65. -/
theorem witness_BitsToUintFoldsFirstBitMostSignificant :
    (List.replicate 63 true).length < 64 ∧ (List.replicate 64 true).length ≤ 64 ∧ 64 < (List.replicate 65 true).length ∧
    bitsToUint (List.replicate 65 true) = 0xFFFFFFFFFFFFFFFF := by decide +kernel

theorem witness_BitCodecRoundTrips :
    (64 : Nat) ≤ 64 ∧ (List.replicate 64 true).length ≤ 64 ∧ bitsToUint (uintToBits (2 ^ 64 + 5) 64) = 5 := by decide +kernel

/-- A header that parses, one that does not, and 47 bits. -/
theorem witness_ParsingFailsExactlyOnAnotherMagic :
    48 ≤ (serializeHeader 5).length ∧ bitsToUint ((serializeHeader 5).take 16) = 0x4454 ∧
    48 ≤ (List.replicate 48 true).length ∧ bitsToUint ((List.replicate 48 true).take 16) ≠ 0x4454 ∧
    (List.replicate 47 true).length < 48 := by decide +kernel

/-- The longest Length, and a 48-bit sequence that parses. -/
theorem witness_HeaderRoundTrip :
    (0xFFFFFFFF : Nat) < 2 ^ 32 ∧ (serializeHeader 0xFFFFFFFF).length = 48 ∧
    parseHeader (serializeHeader 0xFFFFFFFF) = .ok { magic := 0x4454, length := 0xFFFFFFFF } := by decide +kernel

theorem witness_HdrRegisterAndSequencesAgree :
    (List.replicate 48 true).length = 48 ∧ (47 : Nat) < 48 ∧ hdrOfBits (List.replicate 48 true) = 0xFFFFFFFFFFFF := by
  decide +kernel

/-- A right Magic, and one that differs in its top bit (H2.4) or its lowest (H2.3). -/
theorem witness_HdrparseReadsTheHeaderRegister :
    (0x4454FFFFFFFF : BitVec 48).extractLsb' 32 16 = 0x4454 ∧ (0xC45400000005 : BitVec 48).extractLsb' 32 16 ≠ 0x4454 ∧
    (0x445500000005 : BitVec 48).extractLsb' 32 16 ≠ 0x4454 := by decide

/-- The last pixel of a 2 × 2 grid. -/
theorem witness_StreamIndexFollowsScanOrder :
    (1 : Nat) < 2 ∧ (scan 2 2)[1 * 2 + 1]? = some (1, 1) := by decide

theorem witness_WalkerVisitsThePixelsInScanOrder :
    (0 : Nat) < 1 ∧ (walkerNext 1)^[2] (0, 0) = (0, 2) ∧ walkerExhausted 1 2 2 = true ∧ walkerExhausted 1 2 1 = false := by
  decide

/-- One bit on a grid of one pixel: index 0 takes it, index 1 keeps, bit 1 of a sample is a high bit. -/
theorem witness_EmbedProperties :
    (0 : Nat) < min ([true] : List Bit).length (1 * 1 * 3) ∧ min ([true] : List Bit).length (1 * 1 * 3) ≤ 1 ∧
    (1 : Nat) < 1 * 1 * 3 ∧ (1 : Nat) ≤ 1 := by decide

/-- A pixel inside the rectangle, one beyond it, and a payload that agrees on the bytes that are read. -/
theorem witness_EmbedCommandEmbedsThePayloadBits :
    (18 : Nat) < oneByte.W ∧ (0 : Nat) < oneByte.H ∧ ¬((19 : Nat) < oneByte.W ∧ (0 : Nat) < oneByte.H) ∧
    (19 : Nat) < 2 ^ 16 ∧ ∀ a : Nat, a < oneByte.plen.toNat → 8 * a < totalBits oneByte.W oneByte.H →
      State.payRead { oneByte with pay := [(0, 0xFF), (1, 0x12)] } a = oneByte.payRead a := by
  refine ⟨by decide, by decide, by decide, by decide, fun a ha _ => ?_⟩
  have : a = 0 := Nat.lt_one_iff.mp ha
  subst this
  decide

theorem witness_TruncationOnlyOnShortGrids : 48 ≤ 16 * 1 * 3 ∧ (0 : Nat) ≤ maxCapacity 16 1 ∧ 15 * 1 * 3 < 48 := by
  decide +kernel

/-- A grid for each of the four outcomes, the numbers at the ends of their ranges. -/
theorem witness_ExtractFunctionFollowsItsTests :
    15 * 1 * 3 < 48 ∧ 48 ≤ 16 * 1 * 3 ∧
    bitsToUint ((lsbStream (fun _ _ => px 0 0 0 0) 16 1).take 16) ≠ 0x4454 ∧
    bitsToUint ((lsbStream (embed (fun _ _ => px 0 0 0 0) 16 (serializeHeader 1)) 16 1).take 16) = 0x4454 ∧
    maxCapacity 16 1 < bitsToUint (((lsbStream (embed (fun _ _ => px 0 0 0 0) 16 (serializeHeader 1)) 16 1).drop 16).take 32) ∧
    bitsToUint (((lsbStream (embed (fun _ _ => px 0 0 0 0) 16 (serializeHeader 0)) 16 1).drop 16).take 32) ≤ maxCapacity 16 1 := by
  decide +kernel

/-- No byte on the smallest grid that holds a header, one byte on the smallest that holds it. -/
theorem witness_ExtractInvertsEmbedOnAFrame :
    (16 : Nat) < 2 ^ 16 ∧ 48 ≤ 16 * 1 * 3 ∧ ([] : List Byte).length ≤ maxCapacity 16 1 ∧
    48 ≤ 19 * 1 * 3 ∧ ([0xFF] : List Byte).length ≤ maxCapacity 19 1 := by decide +kernel

theorem witness_CapacityFitsItsWidths : (65535 : Nat) < 2 ^ 16 ∧ (0xFFFFFFFF : Nat) < 2 ^ 32 := by decide

theorem witness_CapacityThresholds : (1 : Nat) ≤ 1 ∧ 1 ≤ maxCapacity 19 1 ∧ 48 + 8 * 1 ≤ 19 * 1 * 3 := by decide +kernel

/-- Capacity 0; `PLEN` one above the capacity; `PLEN` at the capacity. -/
theorem witness_HideChecksThenEmbedsTheFrame :
    maxCapacity (st 18 1 0 [] []).W (st 18 1 0 [] []).H = 0 ∧
    (1 ≤ maxCapacity (st 19 1 2 [] []).W (st 19 1 2 [] []).H ∧
      maxCapacity (st 19 1 2 [] []).W (st 19 1 2 [] []).H < (st 19 1 2 [] []).plen.toNat) ∧
    1 ≤ maxCapacity oneByte.W oneByte.H ∧ oneByte.plen.toNat ≤ maxCapacity oneByte.W oneByte.H := by decide +kernel

/-- The bits of a source bank by stream index. -/
def streamBit (s : State) (k : Nat) : Bit :=
  ((s.pixRead s.src (k / 3 % s.W) (k / 3 / s.W)).ch (Fin.ofNat 3 k)).getLsbD 0

/-- For each of the four outcomes a state, with the header its stream begins with. -/
theorem witness_ExtractFindsValidatesAndDelivers :
    ((∀ k < 48, (0 : BitVec 48).getLsbD (47 - k) = streamBit { st 15 1 0 (plain 15 2) [] with height := 1 } k) ∧ 15 * 1 * 3 < 48) ∧
    ((∀ k < 48, (0 : BitVec 48).getLsbD (47 - k) = streamBit (st 16 1 0 (plain 16 1) []) k) ∧
      (0 : BitVec 48).extractLsb' 32 16 ≠ 0x4454) ∧
    ((∀ k < 48, (0x445400000001 : BitVec 48).getLsbD (47 - k) = streamBit (st 16 1 0 (carrier 16 1 0x4454 1) []) k) ∧
      maxCapacity 16 1 < ((0x445400000001 : BitVec 48).extractLsb' 0 32).toNat) ∧
    ((∀ k < 48, (0x445400000001 : BitVec 48).getLsbD (47 - k) = streamBit (st 4 5 0 hiddenE3 []) k) ∧
      (0x445400000001 : BitVec 48).extractLsb' 32 16 = 0x4454 ∧
      ((0x445400000001 : BitVec 48).extractLsb' 0 32).toNat ≤ maxCapacity 4 5) := by decide +kernel

theorem witness_HideFlipExtractGivesThePayloadBack :
    1 ≤ maxCapacity oneByte.W oneByte.H ∧ oneByte.plen.toNat ≤ maxCapacity oneByte.W oneByte.H ∧
    (0 : Nat) < oneByte.plen.toNat := by decide +kernel

/-- Both ends of the range, a grid that holds the header of an empty payload, and the six bytes. -/
theorem witness_SmallGridsCarryOnlyAnEmptyPayload :
    16 ≤ (st 16 1 6 (plain 16 1) []).W * (st 16 1 6 (plain 16 1) []).H ∧
    (st 18 1 6 (plain 18 1) []).W * (st 18 1 6 (plain 18 1) []).H ≤ 18 ∧
    endsWith .extract (st 16 1 6 (carrier 16 1 0x4454 0) []) 0 = true ∧
    (st 16 1 6 (plain 16 1) [0x44, 0x54, 0, 0, 0, 0]).payload 6 = [0x44, 0x54, 0, 0, 0, 0] := by decide +kernel

/-- Every error a command can end with. -/
theorem witness_FailingCommandsChangeOnlyStatus :
    (∃ t, exec .hdrparse State.reset = .next t ∧ t.status.ecode.toNat = 1) ∧
    (∃ t, exec .hide State.reset = .next t ∧ t.status.ecode.toNat = 5) ∧
    (∃ t, exec .hide (st 19 1 2 [] []) = .next t ∧ t.status.ecode.toNat = 4) ∧
    (∃ t, exec .extract State.reset = .next t ∧ t.status.ecode.toNat = 3) ∧
    (∃ t, exec .extract (st 16 1 0 (plain 16 1) []) = .next t ∧ t.status.ecode.toNat = 1) ∧
    ∃ t, exec .extract (st 16 1 0 (carrier 16 1 0x4454 1) []) = .next t ∧ t.status.ecode.toNat = 2 :=
  ⟨endsWith_next (by decide +kernel), endsWith_next (by decide +kernel), endsWith_next (by decide +kernel),
    endsWith_next (by decide +kernel), endsWith_next (by decide +kernel), endsWith_next (by decide +kernel)⟩

/-- A success of each command; with the errors above, of `CommandsWriteOnlyTheirColumns`, `CommandsReadOnlyTheirColumns` and
`CommandsIgnoreEarlierOutcomes` too. A pixel beyond the rectangle and a byte beyond the payload. -/
theorem witness_EngineAccessIsBounded :
    (∃ t, exec .cap oneByte = .next t ∧ t.status.ecode.toNat = 0) ∧
    (∃ t, exec .hdrser oneByte = .next t ∧ t.status.ecode.toNat = 0) ∧
    (∃ t, exec .hdrparse { oneByte with hdr := 0x445400000001 } = .next t ∧ t.status.ecode.toNat = 0) ∧
    (∃ t, exec .embed oneByte = .next t ∧ t.status.ecode.toNat = 0) ∧
    (∃ t, exec .hide oneByte = .next t ∧ t.status.ecode.toNat = 0) ∧
    (∃ t, exec .extract (st 4 5 0 hiddenE3 []) = .next t ∧ t.status.ecode.toNat = 0) ∧
    ¬((1 : Bank) = 1 - oneByte.src ∧ (19 : Nat) < oneByte.W ∧ (0 : Nat) < oneByte.H) ∧ oneByte.plen.toNat ≤ 1 :=
  ⟨endsWith_next (by decide +kernel), endsWith_next (by decide +kernel), endsWith_next (by decide +kernel),
    endsWith_next (by decide +kernel), endsWith_next (by decide +kernel), endsWith_next (by decide +kernel), by decide, by decide⟩

theorem witness_CommandsReadOnlyTheirColumns :
    (∃ t, exec .hide oneByte = .next t ∧ t.status.ecode.toNat = 0) ∧ (0 : Nat) < oneByte.W ∧ (0 : Nat) < oneByte.H ∧
    ∃ t, exec .extract (st 4 5 0 hiddenE3 []) = .next t ∧ t.status.ecode.toNat = 0 :=
  ⟨endsWith_next (by decide +kernel), by decide, by decide, endsWith_next (by decide +kernel)⟩

/-- Two banks that differ in every alpha and every high bit, and agree in the LSBs. -/
theorem witness_ExtractSeesOnlyTheLsbs : ∀ x < 16, ∀ y < 1, ∀ c : Fin 3,
    ((State.pixRead { st 16 1 0 (plain 16 1) [] with grid0 := gridOf 16 1 fun _ _ => px 0xFE 0x80 0x02 0x00, grid1 := [] }
        0 x y).ch c).getLsbD 0
      = (((st 16 1 0 (plain 16 1) []).pixRead 0 x y).ch c).getLsbD 0 := by decide +kernel

theorem witness_EmbeddingTwiceIsEmbeddingOnce :
    oneByte.memoriesOk ∧ (∃ t, exec .embed oneByte = .next t ∧ t.status.ecode.toNat = 0) ∧
    ∃ t, exec .hide oneByte = .next t ∧ t.status.ecode.toNat = 0 :=
  ⟨by decide +kernel, endsWith_next (by decide +kernel), endsWith_next (by decide +kernel)⟩

/-- The first word past the map (byte offset `0x24`, vector Q14), and a register of each kind of access. -/
theorem witness_RegisterMapAccess :
    (∀ r : Reg, 9 ≠ regWord r) ∧ Reg.ctrl ≠ .cmd ∧ Reg.hdrhi ≠ .cmd ∧ Reg.hdrlo ≠ .cmd ∧ Reg.cap ≠ .cmd ∧
    Reg.hdrlo ≠ .hdrhi := by
  refine ⟨fun r => ?_, by decide, by decide, by decide, by decide, by decide⟩
  cases r <;> decide

/-- Nothing to do, and each kind of access at the head of the list. -/
theorem witness_IdleStepTakesTheHostsNextAction :
    oneByte.status.busy = false ∧ oneByte.pending = [] ∧
    (say oneByte (.writeReg (regWord .width) 7)).pending = .writeReg (regWord .width) 7 :: [] ∧
    (say oneByte (.readPix 0 0 0)).pending = .readPix 0 0 0 :: [] ∧ (say oneByte .wait).status.busy = false :=
  ⟨rfl, rfl, rfl, rfl, rfl⟩

/-- `CapWritesTheCapacity`: a write to `WIDTH` after `CAP` (vector Q15). -/
theorem witness_CapWritesTheCapacity : regWord .width ≠ regWord .cmd := by decide

/-- Another bank, another column, another row; another byte. -/
theorem witness_PortsWriteOneUnit :
    ((1 : Bank), (0 : BitVec 16), (0 : BitVec 16)) ≠ (0, 0, 0) ∧ ((0 : Bank), (0 : BitVec 16), (1 : BitVec 16)) ≠ (0, 0, 0) ∧
    ((0 : Bank), (65535 : BitVec 16), (0 : BitVec 16)) ≠ (0, 0, 0) ∧ (0xFFFFFFFF : BitVec 32) ≠ 0 := by decide

theorem witness_ResetWhileIdleKeepsTheMemories :
    (say oneByte .reset).status.busy = false ∧ (say oneByte .reset).pending = .reset :: [] := ⟨rfl, rfl⟩

/-- An `EMBED` and an `EXTRACT` in mid-run with a reset pending; a pixel and a byte the command could not write. -/
theorem witness_ResetAbandonsTheRunningCommand :
    (say (running .embed oneByte 3) .reset true).status.busy = true ∧
    (say (running .embed oneByte 3) .reset true).pending = .reset :: [] ∧
    ((running .embed oneByte 3).run.map Run.opcl) = some (encode .embed) ∧
    (running .extract (st 4 5 0 hiddenE3 []) 17).status.busy = true ∧
    ((running .extract (st 4 5 0 hiddenE3 []) 17).run.map Run.opcl) = some (encode .extract) ∧
    ¬((0 : Bank) = 1 - oneByte.src) ∧ ¬((1 : Nat) < extractBytes (st 4 5 0 hiddenE3 [])) := by decide +kernel

/-- `STATUS` legal while a command runs, with a read of `STATUS` and with a held-off write at the head. -/
theorem witness_HostIsHeldOffWhileBusy :
    (running .embed oneByte 3).status.busy = true ∧ (running .embed oneByte 3).status.ok ∧
    (say (running .embed oneByte 3) (.readReg (regWord .status)) true).pending = .readReg (regWord .status) :: [] ∧
    HostAction.writeReg (regWord .cmd) 1 ≠ .readReg (regWord .status) ∧ HostAction.writeReg (regWord .cmd) 1 ≠ .reset ∧ HostAction.writeReg (regWord .cmd) 1 ≠ .wait := by
  decide +kernel

/-- The invariant in an idle state, in mid-embedding, in either phase of an extraction, and after a command; each steps. -/
theorem witness_StepKeepsTheInvariant :
    oneByte.Inv ∧ (running .embed oneByte 3).Inv ∧ (running .hide oneByte 18).Inv ∧
    (running .extract (st 4 5 0 hiddenE3 []) 3).Inv ∧ (running .extract (st 4 5 0 hiddenE3 []) 17).Inv ∧
    (running .extract (st 4 5 0 hiddenE3 []) 19).Inv :=
  ⟨by decide +kernel, by decide +kernel, by decide +kernel, by decide +kernel, by decide +kernel, by decide +kernel⟩

theorem witness_StepNeverStops : ∃ t, step (running .hide oneByte 18) = .next t ∧ t.status.word = 0x00000001 :=
  ⟨_, rfl, by decide +kernel⟩

/-- Of `PixelStepsAgreeWithTheFunctionalRules` and of the two statements on step counts: the start, and both ends of `k`. -/
theorem witness_StepwiseRuns :
    (say oneByte (.writeReg (regWord .cmd) (encode .hide)) true).status.busy = false ∧
    (say oneByte (.writeReg (regWord .cmd) (encode .hide)) true).stepwise = true ∧
    (say oneByte (.writeReg (regWord .cmd) (encode .hide)) true).pending = [.writeReg (regWord .cmd) (encode .hide)] ∧
    hideCheck (maxCapacity oneByte.W oneByte.H) oneByte.plen.toNat = none ∧
    (running .hide oneByte 19).status.busy = true ∧ (running .hide oneByte 20).status.word = 0x00000002 := by decide +kernel

/-- 95_test_vectors.md E3: 19 pixel steps on success. E6 at 15 × 1: the sixteenth move finds the walker exhausted. -/
theorem witness_ExtractingRunStepCounts :
    (running .extract (st 4 5 0 hiddenE3 []) 18).status.busy = true ∧
    (running .extract (st 4 5 0 hiddenE3 []) 19).status.word = 0x00000002 ∧
    (running .extract (st 15 1 0 (plain 15 1) []) 15).status.busy = true ∧
    (running .extract (st 15 1 0 (plain 15 1) []) 16).status.word = 0x00000036 ∧
    (running .extract (st 16 1 0 (plain 16 1) []) 15).status.busy = true ∧
    (running .extract (st 16 1 0 (plain 16 1) []) 16).status.word = 0x00000016 := by decide +kernel

end Sys2Proof.Tests
end

section
/-! The sizes of 42_engine.md R160 and 43_service.md R190 in numerals, and the bounds of 00_scope.md R6 on them. -/

namespace Sys2Proof.Machine

theorem totalBits_eq (W H : Nat) : totalBits W H = W * H * 3 :=
  rfl

/-- Below 48 bits the truncated subtraction already gives the 0 of R190's first case. -/
theorem maxCapacity_eq (W H : Nat) : maxCapacity W H = (totalBits W H - 48) / 8 := by
  simp only [maxCapacity, Config.headerBits_eq]
  split <;> omega

theorem neededBits_eq (len : Nat) : neededBits len = 48 + len * 8 :=
  rfl

/-- The largest grid is 65535 × 65535 pixels. -/
theorem totalBits_le_of_dims {W H : Nat} (hW : W < 2 ^ 16) (hH : H < 2 ^ 16) : totalBits W H ≤ 12884508675 :=
  calc totalBits W H
    _ = W * H * 3 := totalBits_eq W H
    _ ≤ 65535 * 65535 * 3 := Nat.mul_le_mul_right 3 (Nat.mul_le_mul (Nat.le_of_lt_succ hW) (Nat.le_of_lt_succ hH))
    _ = 12884508675 := by norm_num

theorem maxCapacity_le_of_dims {W H : Nat} (hW : W < 2 ^ 16) (hH : H < 2 ^ 16) : maxCapacity W H ≤ 1610563578 := by
  have hT := totalBits_le_of_dims hW hH
  rw [maxCapacity_eq]
  omega

theorem neededBits_lt_of_length {len : Nat} (hlen : len < 2 ^ 32) : neededBits len < 2 ^ 36 := by
  rw [neededBits_eq]
  omega

/-- Settles O25: the three bounds by name; each power of two of R6 is above its bound. -/
theorem capacityFitsItsWidths : Obligations.CapacityFitsItsWidths := by
  intro W H hW hH
  have hT := totalBits_le_of_dims hW hH
  have hC := maxCapacity_le_of_dims hW hH
  exact ⟨hT, hT.trans_lt (by norm_num), hC, hC.trans_lt (by norm_num), fun _ => neededBits_lt_of_length⟩

end Sys2Proof.Machine
end

section
/-! The scan walker of 10_state.md R33. -/

namespace Sys2Proof.Machine

/-- One advance takes the place of pixel `p` to the place of pixel `p + 1`: along the row, or to the start of the next. -/
theorem walkerNext_mod_div {W : Nat} (hW : 0 < W) (p : Nat) :
    walkerNext W (p % W, p / W) = ((p + 1) % W, (p + 1) / W) := by
  have hp : p + 1 = W * (p / W) + (p % W + 1) := by rw [← add_assoc, Nat.div_add_mod]
  simp only [walkerNext]
  split
  case isTrue hrow =>
    rw [hp, Nat.mul_add_mod, Nat.mul_add_div hW, Nat.mod_eq_of_lt hrow, Nat.div_eq_of_lt hrow, Nat.add_zero (p / W)]
  case isFalse hrow =>
    have hend : p % W + 1 = W := le_antisymm (Nat.mod_lt p hW) (not_lt.mp hrow)
    rw [hp, hend, ← Nat.mul_succ, Nat.mul_mod_right, Nat.mul_div_cancel_left _ hW]

theorem walkerNext_iterate {W : Nat} (hW : 0 < W) (p : Nat) : (walkerNext W)^[p] (0, 0) = (p % W, p / W) := by
  induction p with
  | zero => simp
  | succ p ih => rw [Function.iterate_succ_apply', ih, walkerNext_mod_div hW]

theorem walkerExhausted_iff {W : Nat} (hW : 0 < W) (H y : Nat) : walkerExhausted W H y = true ↔ H ≤ y := by
  simp [walkerExhausted, hW.ne']

/-- Settles O19: the walker's place after `p` advances by induction, and `H ≤ p / W` for its exhaustion. -/
theorem walkerVisitsThePixelsInScanOrder : Obligations.WalkerVisitsThePixelsInScanOrder := by
  intro W H p hW
  rw [walkerNext_iterate hW, walkerExhausted_iff hW, Nat.le_div_iff_mul_le hW, Nat.mul_comm H W]
  exact ⟨rfl, Iff.rfl⟩

end Sys2Proof.Machine
end

section
/-! What each command does, one equation for each way it can end (10_state.md R29), and the error codes of the ends. -/

namespace Sys2Proof.Machine

/-! ## The codes -/

@[simp] theorem statusEnded_ecode (e : Option ErrorKind) : (statusEnded e).ecode = endCode e := rfl

@[simp] theorem endCode_none : endCode none = 0#3 := rfl

@[simp] theorem endCode_some (e : ErrorKind) : endCode (some e) = errorCode e := rfl

/-- No error has the code of success (60_exceptions.md R221). -/
@[simp] theorem errorCode_ne_zero (e : ErrorKind) : errorCode e ≠ 0#3 := by
  cases e <;> decide

/-! ## The equations -/

theorem exec_cap (s : State) :
    exec .cap s = .next (finish none { s with cap := BitVec.ofNat 32 (maxCapacity s.W s.H) }) := rfl

theorem exec_hdrser (s : State) :
    exec .hdrser s = .next (finish none { s with hdr := hdrOfBits (serializeHeader s.plen.toNat) }) := rfl

theorem exec_hdrparse_of_ok {s : State} {h : Header} (hp : parseHeader (bitsOfHdr s.hdr) = .ok h) :
    exec .hdrparse s = .next (finish none { s with plen := h.length }) := by
  change execHdrparse s = _
  rw [execHdrparse, hp]
  rfl

theorem exec_hdrparse_of_error {s : State} {e : ErrorKind} (hp : parseHeader (bitsOfHdr s.hdr) = .error e) :
    exec .hdrparse s = .next (finish (some e) s) := by
  change execHdrparse s = _
  rw [execHdrparse, hp]
  rfl

/-- The start of a command and a written rectangle touch different fields. -/
theorem finish_writeRect_accept (e : Option ErrorKind) (c : Word) (s : State) (b : Bank) (G : Grid) :
    finish e ((accept c s).writeRect b G) = finish e (s.writeRect b G) := by
  rcases bank_cases b with rfl | rfl <;> rfl

theorem exec_embed (s : State) :
    exec .embed s = .next (finish none (s.writeRect s.dst (embed (s.grid s.src) s.W s.embedBits))) :=
  (execEmbed_eq s).trans (congrArg _ (finish_writeRect_accept ..))

theorem exec_hide_of_some {s : State} {e : ErrorKind} (hc : hideCheck (maxCapacity s.W s.H) s.plen.toNat = some e) :
    exec .hide s = .next (finish (some e) s) := by
  refine (execHide_eq s).trans ?_
  rw [hideEffect, hc]
  rfl

theorem exec_hide_of_none {s : State} (hc : hideCheck (maxCapacity s.W s.H) s.plen.toNat = none) :
    exec .hide s = .next (finish none
      { s.writeRect s.dst (embed (s.grid s.src) s.W (frame (s.payload s.plen.toNat))) with
        hdr := hdrOfBits (serializeHeader s.plen.toNat) }) := by
  refine (execHide_eq s).trans (congrArg _ ?_)
  rw [hideEffect, hc]
  rcases bank_cases s.dst with hdst | hdst <;> rw [hdst] <;> rfl

/-- The value of `HDR` that the first 48 bits of the source bank's stream make. -/
def State.streamHeader (s : State) : BitVec 48 :=
  hdrOfBits ((lsbStream (s.grid s.src) s.W s.H).take Config.headerBits)

theorem exec_extract_of_short {s : State} (hT : totalBits s.W s.H < Config.headerBits) :
    exec .extract s = .next (finish (some .truncatedData) s) := by
  refine (execExtract_eq s).trans (congrArg _ ?_)
  rw [extractEffect, if_pos hT]
  rfl

theorem exec_extract_of_error {s : State} {e : ErrorKind} (hT : ¬totalBits s.W s.H < Config.headerBits)
    (hf : s.found = .error e) : exec .extract s = .next (finish (some e) { s with hdr := s.streamHeader }) := by
  refine (execExtract_eq s).trans (congrArg _ ?_)
  rw [extractEffect, if_neg hT, hf]
  rfl

theorem exec_extract_of_ok {s : State} {bytes : List Byte} (hT : ¬totalBits s.W s.H < Config.headerBits)
    (hf : s.found = .ok bytes) :
    exec .extract s = .next (finish none { s with
      hdr := s.streamHeader, pay := Memory.writeList s.pay 0 bytes, plen := BitVec.ofNat 32 bytes.length }) := by
  refine (execExtract_eq s).trans (congrArg _ ?_)
  rw [extractEffect, if_neg hT, hf]
  rfl

/-! ## The errors of a stream that holds a header -/

@[simp] theorem lsbStream_length (G : Grid) (W H : Nat) : (lsbStream G W H).length = totalBits W H := by
  rw [lsbStream, flatMap_lsbs_length, scan_length, totalBits_eq, Nat.mul_comm]

/-- On a grid that holds a header, a frame within the capacity fits, so phase 2 cannot run short (42_engine.md R162). -/
theorem neededBits_le_totalBits {W H len : Nat} (hT : ¬totalBits W H < Config.headerBits) (hl : len ≤ maxCapacity W H) :
    neededBits len ≤ totalBits W H := by
  rw [maxCapacity_eq] at hl
  rw [neededBits_eq]
  simp only [Config.headerBits_eq] at hT
  omega

theorem parseHeader_error {bits : List Bit} {e : ErrorKind} (h : parseHeader bits = .error e) : e = .headerNotFound := by
  simp only [parseHeader] at h
  split at h <;> cases h
  rfl

theorem extract_error_of_header {G : Grid} {W H : Nat} {e : ErrorKind} (hT : ¬totalBits W H < Config.headerBits)
    (h : extract G W H = .error e) : e = .headerNotFound ∨ e = .invalidLength := by
  simp only [extract, lsbStream_length, if_neg hT] at h
  split at h
  case h_1 _ hp => exact .inl (Except.error.inj h ▸ parseHeader_error hp)
  case h_2 hdr _ =>
    split at h
    case isTrue => exact .inr (Except.error.inj h).symm
    case isFalse hl => rw [if_neg (neededBits_le_totalBits hT (not_lt.mp hl)).not_gt] at h; cases h

theorem found_error_of_header {s : State} {e : ErrorKind} (hT : ¬totalBits s.W s.H < Config.headerBits)
    (h : s.found = .error e) : e = .headerNotFound ∨ e = .invalidLength := by
  simp only [State.found, extractService] at h
  split at h <;> cases h
  exact extract_error_of_header hT ‹_›

end Sys2Proof.Machine
end

section
/-! What no command writes (10_state.md R29). -/

namespace Sys2Proof.Machine

theorem next_unique {i : Instr} {s t u : State} (ht : exec i s = .next t) (hu : exec i s = .next u) : t = u :=
  Host.Outcome.next.inj (ht.symm.trans hu)

@[simp] theorem bank_finish (e : Option ErrorKind) (s : State) (b : Bank) : (finish e s).bank b = s.bank b := rfl

/-- An embedding writes the destination bank alone. -/
@[simp] theorem bank_src_writeRect_dst (s : State) (G : Grid) : (s.writeRect s.dst G).bank s.src = s.bank s.src :=
  bank_writeRect_other s G (dst_ne_src s).symm

/-- Settles O37: each way a command ends is an equation that shows what it writes; the embedded rectangle lies in the
destination bank. -/
theorem commandsWriteOnlyTheirColumns : Obligations.CommandsWriteOnlyTheirColumns := by
  intro i s t h
  cases i with
  | cap =>
    obtain rfl := next_unique h (exec_cap s)
    simp [State.bank]
  | hdrser =>
    obtain rfl := next_unique h (exec_hdrser s)
    simp [State.bank]
  | hdrparse =>
    cases hp : parseHeader (bitsOfHdr s.hdr) with
    | ok hdr =>
      obtain rfl := next_unique h (exec_hdrparse_of_ok hp)
      simp [State.bank]
    | error e =>
      obtain rfl := next_unique h (exec_hdrparse_of_error hp)
      simp
  | embed =>
    obtain rfl := next_unique h (exec_embed s)
    simp
  | hide =>
    cases hc : hideCheck (maxCapacity s.W s.H) s.plen.toNat with
    | some e =>
      obtain rfl := next_unique h (exec_hide_of_some hc)
      simp
    | none =>
      obtain rfl := next_unique h (exec_hide_of_none hc)
      refine ⟨?_, ?_, ?_, bank_src_writeRect_dst s _, ?_⟩ <;> simp
  | extract =>
    by_cases hT : totalBits s.W s.H < Config.headerBits
    · obtain rfl := next_unique h (exec_extract_of_short hT)
      simp
    · cases hf : s.found with
      | error e =>
        obtain rfl := next_unique h (exec_extract_of_error hT hf)
        simp [State.bank]
      | ok bytes =>
        obtain rfl := next_unique h (exec_extract_of_ok hT hf)
        simp [State.bank]

end Sys2Proof.Machine
end

section
/-! What no command reads (10_state.md R29): `CAP` and `HDRSER` by their equations, the other commands one lemma each. -/

namespace Sys2Proof.Machine

variable {s t : State}

theorem hdrparse_reads_only_hdr (p c : Word) (w h : BitVec 16) (b : Bank) (g0 g1 : Memory Pixel) (m : List Host.Cell)
    (ht : exec .hdrparse s = .next t) :
    exec .hdrparse { s with plen := p, src := b, width := w, height := h, cap := c, grid0 := g0, grid1 := g1, pay := m }
      = .next { t with
          plen := if t.status.ecode = 0 then t.plen else p
          src := b, width := w, height := h, cap := c, grid0 := g0, grid1 := g1, pay := m } := by
  cases hp : parseHeader (bitsOfHdr s.hdr) with
  | ok hdr =>
    obtain rfl := next_unique ht (exec_hdrparse_of_ok hp)
    exact exec_hdrparse_of_ok hp
  | error e =>
    obtain rfl := next_unique ht (exec_hdrparse_of_error hp)
    simpa [finish_eq] using exec_hdrparse_of_error
      (s := { s with plen := p, src := b, width := w, height := h, cap := c, grid0 := g0, grid1 := g1, pay := m }) hp

/-- Writing a rectangle commutes with a change of `CAP` and `HDR`. -/
theorem writeRect_with_cap_hdr (s : State) (b : Bank) (G : Grid) (c : Word) (hd : BitVec 48) :
    State.writeRect { s with cap := c, hdr := hd } b G = { s.writeRect b G with cap := c, hdr := hd } := by
  rcases bank_cases b with rfl | rfl <;> rfl

theorem embed_reads_neither_cap_nor_hdr (c : Word) (hd : BitVec 48) (ht : exec .embed s = .next t) :
    exec .embed { s with cap := c, hdr := hd } = .next { t with cap := c, hdr := hd } := by
  obtain rfl := next_unique ht (exec_embed s)
  rw [exec_embed, writeRect_with_cap_hdr]
  rfl

theorem hide_reads_neither_cap_nor_hdr (c : Word) (hd : BitVec 48) (ht : exec .hide s = .next t) :
    exec .hide { s with cap := c, hdr := hd }
      = .next { t with cap := c, hdr := if t.status.ecode = 0 then t.hdr else hd } := by
  cases hc : hideCheck (maxCapacity s.W s.H) s.plen.toNat with
  | some e =>
    obtain rfl := next_unique ht (exec_hide_of_some hc)
    simpa [finish_eq] using exec_hide_of_some (s := { s with cap := c, hdr := hd }) hc
  | none =>
    obtain rfl := next_unique ht (exec_hide_of_none hc)
    rw [exec_hide_of_none (s := { s with cap := c, hdr := hd }) hc, writeRect_with_cap_hdr]
    rfl

/-! ## The destination bank -/

@[simp] theorem setBank_W (s : State) (b : Bank) (m : Memory Pixel) : (s.setBank b m).W = s.W := by simp [State.W]

@[simp] theorem setBank_H (s : State) (b : Bank) (m : Memory Pixel) : (s.setBank b m).H = s.H := by simp [State.H]

@[simp] theorem setBank_dst (s : State) (b : Bank) (m : Memory Pixel) : (s.setBank b m).dst = s.dst := by
  simp [State.dst]

@[simp] theorem setBank_payload (s : State) (b : Bank) (m : Memory Pixel) (n : Nat) :
    (s.setBank b m).payload n = s.payload n := by
  simp [State.payload, State.payRead]

@[simp] theorem setBank_embedBits (s : State) (b : Bank) (m : Memory Pixel) : (s.setBank b m).embedBits = s.embedBits := by
  simp [State.embedBits]

/-- The source grid does not see the destination bank. -/
@[simp] theorem grid_src_setBank_dst (s : State) (m : Memory Pixel) : (s.setBank s.dst m).grid s.src = s.grid s.src := by
  funext x y
  simp [State.grid, State.pixRead, bank_setBank_other s m (dst_ne_src s).symm]

/-- Inside the written rectangle a pixel is the one written, whatever the bank held. -/
theorem pixRead_writeRect_inside (s : State) (b : Bank) (G : Grid) {x y : Nat} (hx : x < s.W) (hy : y < s.H) :
    (s.writeRect b G).pixRead b x y = G x y := by
  rw [pixRead_writeRect s b b G (hx.trans s.width.isLt), if_pos ⟨rfl, hx, hy⟩]

/-- So the rectangle that an embedding leaves does not depend on what the destination bank held. -/
theorem pixRead_writeRect_setBank (s : State) (b : Bank) (m : Memory Pixel) (G : Grid) {x y : Nat} (hx : x < s.W)
    (hy : y < s.H) : ((s.setBank b m).writeRect b G).pixRead b x y = (s.writeRect b G).pixRead b x y := by
  rw [pixRead_writeRect_inside s b G hx hy, pixRead_writeRect_inside _ b G (by simpa using hx) (by simpa using hy)]

theorem embed_reads_no_destination (m : Memory Pixel) (ht : exec .embed s = .next t) : ∃ u : State,
    exec .embed (s.setBank s.dst m) = .next u ∧ u.status = t.status ∧ u.hdr = t.hdr ∧
    (t.status.ecode = 0 → ∀ x y : Nat, x < s.W → y < s.H → u.pixRead s.dst x y = t.pixRead s.dst x y) := by
  obtain rfl := next_unique ht (exec_embed s)
  have hu := exec_embed (s.setBank s.dst m)
  simp only [setBank_dst, setBank_src, setBank_W, setBank_embedBits, grid_src_setBank_dst] at hu
  exact ⟨_, hu, rfl, by simp, fun _ _ _ => pixRead_writeRect_setBank s s.dst m _⟩

theorem hide_reads_no_destination (m : Memory Pixel) (ht : exec .hide s = .next t) : ∃ u : State,
    exec .hide (s.setBank s.dst m) = .next u ∧ u.status = t.status ∧ u.hdr = t.hdr ∧
    (t.status.ecode = 0 → ∀ x y : Nat, x < s.W → y < s.H → u.pixRead s.dst x y = t.pixRead s.dst x y) := by
  cases hc : hideCheck (maxCapacity s.W s.H) s.plen.toNat with
  | some e =>
    obtain rfl := next_unique ht (exec_hide_of_some hc)
    have hu := exec_hide_of_some (s := s.setBank s.dst m) (e := e) (by simpa using hc)
    exact ⟨_, hu, rfl, by simp, fun h => absurd h (errorCode_ne_zero e)⟩
  | none =>
    obtain rfl := next_unique ht (exec_hide_of_none hc)
    have hu := exec_hide_of_none (s := s.setBank s.dst m) (by simpa using hc)
    simp only [setBank_dst, setBank_src, setBank_W, setBank_plen, setBank_payload, grid_src_setBank_dst] at hu
    exact ⟨_, hu, rfl, rfl, fun _ _ _ => pixRead_writeRect_setBank s s.dst m _⟩

/-! ## `EXTRACT` -/

/-- A byte that a run of writes covers is the one written, whatever the memory held. -/
theorem payRead_writeList_inside (s : State) (m : List Host.Cell) (bytes : List Byte) {a : Nat} (ha : a < bytes.length) :
    State.payRead { s with pay := Memory.writeList m 0 bytes } a = bytes[a] := by
  simp [State.payRead, memory_read_writeList, ha]

theorem extract_reads_neither_results_nor_cap (p c : Word) (hd : BitVec 48) (m : List Host.Cell)
    (ht : exec .extract s = .next t) : ∃ u : State,
    exec .extract { s with cap := c, plen := p, hdr := hd, pay := m } = .next u ∧
    u = { t with
      cap := c, plen := if t.status.ecode = 0 then t.plen else p
      hdr := if t.status.ecode = 3 then hd else t.hdr, pay := u.pay } ∧
    (t.status.ecode ≠ 0 → u.pay = m) ∧
    (t.status.ecode = 0 → ∀ a < t.plen.toNat, u.payRead a = t.payRead a) := by
  by_cases hT : totalBits s.W s.H < Config.headerBits
  · obtain rfl := next_unique ht (exec_extract_of_short hT)
    exact ⟨_, exec_extract_of_short hT, rfl, fun _ => rfl, fun h => absurd h (errorCode_ne_zero .truncatedData)⟩
  · cases hf : s.found with
    | error e =>
      obtain rfl := next_unique ht (exec_extract_of_error hT hf)
      refine ⟨_, exec_extract_of_error hT hf, ?_, fun _ => rfl, fun h => absurd h (errorCode_ne_zero e)⟩
      rcases found_error_of_header hT hf with rfl | rfl <;> rfl
    | ok bytes =>
      obtain rfl := next_unique ht (exec_extract_of_ok hT hf)
      refine ⟨_, exec_extract_of_ok hT hf, rfl, fun h => absurd rfl h, fun _ a ha => ?_⟩
      have hlen : a < bytes.length := ha.trans_le (Nat.mod_le ..)
      exact (payRead_writeList_inside _ m bytes hlen).trans (payRead_writeList_inside _ s.pay bytes hlen).symm

end Sys2Proof.Machine
end

section
/-! The statement on what no command reads. -/

namespace Sys2Proof.Machine

/-- Settles O38: each command's equations name only what it reads, and what an embedding or an extraction writes over a
memory does not depend on what stood there. -/
theorem commandsReadOnlyTheirColumns : Obligations.CommandsReadOnlyTheirColumns := by
  intro s t p c w h b hd g0 g1 m
  refine ⟨fun ht => ?_, fun ht => ?_, hdrparse_reads_only_hdr p c w h b g0 g1 m, embed_reads_neither_cap_nor_hdr c hd,
    hide_reads_neither_cap_nor_hdr c hd, ?_, extract_reads_neither_results_nor_cap p c hd m⟩
  · obtain rfl := next_unique ht (exec_cap s)
    rfl
  · obtain rfl := next_unique ht (exec_hdrser s)
    rfl
  · rintro i (rfl | rfl) ht
    · exact embed_reads_no_destination g0 ht
    · exact hide_reads_no_destination g0 ht

end Sys2Proof.Machine
end

section
/-! The accesses of the engine (20_memory.md R54): what a command leaves of each memory, and the locations that it spares. -/

namespace Sys2Proof.Machine

variable {i : Instr} {s t : State}

/-! ## A read depends on its own memory and on the power-up -/

theorem pixRead_congr {b : Bank} (hbank : t.bank b = s.bank b) (hpow : t.powerUp = s.powerUp) (x y : Nat) :
    t.pixRead b x y = s.pixRead b x y := by
  simp only [State.pixRead, hbank, hpow]

theorem payRead_congr (hpay : t.pay = s.pay) (hpow : t.powerUp = s.powerUp) (a : Nat) : t.payRead a = s.payRead a := by
  simp only [State.payRead, hpay, hpow]

theorem pixRead_writeRect_outside (s : State) {b c : Bank} (G : Grid) {x y : Nat} (hx : x < 2 ^ 16)
    (hout : ¬(c = b ∧ x < s.W ∧ y < s.H)) : (s.writeRect b G).pixRead c x y = s.pixRead c x y := by
  rw [pixRead_writeRect s b c G hx, if_neg hout]

theorem memory_read_writeList_beyond {α : Type} (m : Memory α) (vs : List α) {a : Nat} (ha : vs.length ≤ a) :
    (Memory.writeList m 0 vs).read a = m.read a := by
  rw [memory_read_writeList, if_neg (by omega)]

/-! ## What a command leaves -/

theorem exec_powerUp (h : exec i s = .next t) : t.powerUp = s.powerUp := by
  obtain ⟨-, -, -, -, -, -, -, -, -, -, -, -, hpow, -⟩ := commandsWriteOnlyTheirColumns i s t h
  exact hpow

/-- A command leaves both banks alone, or writes the rectangle of the destination bank. -/
theorem exec_bank_cases (h : exec i s = .next t) : t.bank = s.bank ∨ ∃ G : Grid, t.bank = (s.writeRect s.dst G).bank := by
  obtain ⟨-, -, -, -, -, -, -, -, hgrids, -⟩ := commandsWriteOnlyTheirColumns i s t h
  by_cases hembed : i = .embed
  · subst hembed
    obtain rfl := next_unique h (exec_embed s)
    exact .inr ⟨_, rfl⟩
  by_cases hhide : i = .hide
  · subst hhide
    cases hc : hideCheck (maxCapacity s.W s.H) s.plen.toNat with
    | some e =>
      obtain rfl := next_unique h (exec_hide_of_some hc)
      exact .inl rfl
    | none =>
      obtain rfl := next_unique h (exec_hide_of_none hc)
      exact .inr ⟨_, rfl⟩
  · obtain ⟨h0, h1⟩ := hgrids hembed hhide
    exact .inl (funext fun b => by simp only [State.bank, h0, h1])

/-- What `EXTRACT` delivers fits `PLEN`, so `PLEN` holds its whole length. -/
theorem toNat_ofNat_found_length {bytes : List Byte} (hf : s.found = .ok bytes) :
    (BitVec.ofNat 32 bytes.length).toNat = bytes.length := by
  have hlen := found_length_le hf
  have hcap := maxCapacity_lt s
  rw [BitVec.toNat_ofNat, Nat.mod_eq_of_lt (by omega)]

/-- A command leaves `PAY` alone, or writes as many bytes from address 0 on as `PLEN` then says. -/
theorem exec_pay_cases (h : exec i s = .next t) :
    t.pay = s.pay ∨ ∃ bytes : List Byte, t.plen.toNat = bytes.length ∧ t.pay = Memory.writeList s.pay 0 bytes := by
  obtain ⟨-, -, -, -, -, -, -, hpay, -⟩ := commandsWriteOnlyTheirColumns i s t h
  by_cases hextract : i = .extract
  · subst hextract
    by_cases hT : totalBits s.W s.H < Config.headerBits
    · obtain rfl := next_unique h (exec_extract_of_short hT)
      exact .inl rfl
    · cases hf : s.found with
      | error e =>
        obtain rfl := next_unique h (exec_extract_of_error hT hf)
        exact .inl rfl
      | ok bytes =>
        obtain rfl := next_unique h (exec_extract_of_ok hT hf)
        exact .inr ⟨bytes, toNat_ofNat_found_length hf, rfl⟩
  · exact .inl (hpay hextract)

/-! ## What a command spares -/

theorem exec_pixRead_outside (h : exec i s = .next t) {b : Bank} {x y : Nat} (hx : x < 2 ^ 16)
    (hout : ¬(b = s.dst ∧ x < s.W ∧ y < s.H)) : t.pixRead b x y = s.pixRead b x y := by
  rcases exec_bank_cases h with hbank | ⟨G, hbank⟩
  · exact pixRead_congr (congrFun hbank b) (exec_powerUp h) x y
  · calc t.pixRead b x y
      _ = (s.writeRect s.dst G).pixRead b x y :=
        pixRead_congr (congrFun hbank b) ((exec_powerUp h).trans (writeRect_powerUp s s.dst G).symm) x y
      _ = s.pixRead b x y := pixRead_writeRect_outside s G hx hout

theorem exec_payRead_beyond (h : exec i s = .next t) {a : Nat} (ha : t.plen.toNat ≤ a) : t.payRead a = s.payRead a := by
  rcases exec_pay_cases h with hpay | ⟨bytes, hlen, hpay⟩
  · exact payRead_congr hpay (exec_powerUp h) a
  · simp only [State.payRead, hpay, exec_powerUp h, memory_read_writeList_beyond s.pay bytes (hlen ▸ ha)]

/-- Settles O39: a command that writes a bank writes the destination's rectangle, and one that writes `PAY` writes its first
`PLEN` bytes. -/
theorem engineAccessIsBounded : Obligations.EngineAccessIsBounded := by
  intro i s t h
  exact ⟨fun _ _ _ hx _ hout => exec_pixRead_outside h hx hout, fun _ ha => exec_payRead_beyond h ha⟩

end Sys2Proof.Machine
end

section
/-! The grid port and the payload port of the host (20_memory.md R52, R53). -/

namespace Sys2Proof.Machine

/-! ## The accesses -/

theorem hostAct_writePix (s : State) (b : Bank) (x y : BitVec 16) (w : BitVec 32) :
    hostAct (.writePix b x y w) s = .next (s.pixWrite b x.toNat y.toNat (Pixel.ofWord w)) := rfl

theorem hostAct_readPix (s : State) (b : Bank) (x y : BitVec 16) :
    hostAct (.readPix b x y) s = .next (s.reply (.pixel (s.pixRead b x.toNat y.toNat).toWord)) := rfl

theorem hostAct_writePay (s : State) (a : BitVec 32) (v : Byte) :
    hostAct (.writePay a v) s = .next (s.payWrite a.toNat v) := rfl

theorem hostAct_readPay (s : State) (a : BitVec 32) :
    hostAct (.readPay a) s = .next (s.reply (.byte (s.payRead a.toNat))) := rfl

/-! ## What a write leaves -/

/-- A pixel write touches no field but the two banks. -/
theorem pixWrite_frame (s : State) (b : Bank) (x y : Nat) (px : Pixel) :
    s.pixWrite b x y px = { s with grid0 := (s.pixWrite b x y px).grid0, grid1 := (s.pixWrite b x y px).grid1 } := by
  rcases bank_cases b with rfl | rfl <;> rfl

theorem pixRead_pixWrite_same (s : State) (b : Bank) (x y : BitVec 16) (px : Pixel) :
    (s.pixWrite b x.toNat y.toNat px).pixRead b x.toNat y.toNat = px := by
  rw [pixRead_pixWrite s b b px x.isLt x.isLt, if_pos ⟨rfl, rfl, rfl⟩]

theorem pixRead_pixWrite_other (s : State) {b b' : Bank} {x y x' y' : BitVec 16} (px : Pixel)
    (hne : (b', x', y') ≠ (b, x, y)) :
    (s.pixWrite b x.toNat y.toNat px).pixRead b' x'.toNat y'.toNat = s.pixRead b' x'.toNat y'.toNat := by
  rw [pixRead_pixWrite s b b' px x.isLt x'.isLt, if_neg]
  rintro ⟨hb, hx, hy⟩
  exact hne (by rw [hb, BitVec.eq_of_toNat_eq hx, BitVec.eq_of_toNat_eq hy])

/-- Settles O44: the pixel written is read back, every other pixel is as before, and a pixel write touches the banks alone. -/
theorem gridPortWritesOnePixel : Obligations.GridPortWritesOnePixel := by
  intro s b x y w
  have hread := pixRead_pixWrite_same s b x y (Pixel.ofWord w)
  refine ⟨_, hostAct_writePix s b x y w, pixWrite_frame .., ?_, ?_, ?_, ?_, ?_, fun b' x' y' =>
    pixRead_pixWrite_other s (Pixel.ofWord w)⟩
  · rw [hostAct_readPix, hread, pixel_toWord_ofWord]
    rfl
  all_goals
    rw [hread]
    rfl

/-- Settles O45: the byte written is read back, every other byte is as before, and a byte write touches `PAY` alone. -/
theorem payPortWritesOneByte : Obligations.PayPortWritesOneByte := by
  intro s a v
  refine ⟨_, hostAct_writePay s a v, rfl, ?_, fun a' hne => ?_⟩
  · rw [hostAct_readPay, payRead_payWrite, if_pos rfl]
    rfl
  · rw [payRead_payWrite, if_neg fun h => hne (BitVec.eq_of_toNat_eq h)]

end Sys2Proof.Machine
end

section
/-! The command word and the opcode map (30_encoding.md R80 to R85): a word decodes exactly when it is a command's encoding. -/

namespace Sys2Proof.Machine

/-! ## The fields of a word -/

/-- The two fields of R80 are the whole word. -/
@[simp] theorem toWord_ofWord (c : Word) : (CommandWord.ofWord c).toWord = c :=
  (BitVec.extractLsb'_append_extractLsb'_eq_extractLsb' rfl).trans BitVec.extractLsb'_eq_self

@[simp] theorem zeroOk_iff (f : CommandWord) : f.zeroOk = true ↔ f.zero = 0 :=
  beq_iff_eq

theorem wordShape (i : Instr) : Laws.WordShape.Statement i :=
  match i with
  | .cap => Laws.WordShape.cap
  | .hdrser => Laws.WordShape.hdrser
  | .hdrparse => Laws.WordShape.hdrparse
  | .embed => Laws.WordShape.embed
  | .hide => Laws.WordShape.hide
  | .extract => Laws.WordShape.extract

theorem ofWord_encode_wf (i : Instr) : (CommandWord.ofWord (encode i)).wf = true :=
  let ⟨_, hwf, _⟩ := wordShape i
  hwf

/-! ## Decoding, in the order of R83 -/

theorem decode_of_zero_ne {c : Word} (h : (CommandWord.ofWord c).zero ≠ 0) : decode c = .error .zeroFieldNotZero :=
  if_neg (mt (zeroOk_iff _).mp h)

theorem decode_of_zero_eq {c : Word} (h : (CommandWord.ofWord c).zero = 0) :
    decode c = decodeOpc (CommandWord.ofWord c).opc :=
  if_pos ((zeroOk_iff _).mpr h)

theorem opc_of_decodeOpc {opc : BitVec 4} {i : Instr} (h : decodeOpc opc = .ok i) : opc = i.opc := by
  unfold decodeOpc at h
  split at h
  case h_7 => cases h
  all_goals
    cases h
    exact BitVec.eq_of_toNat_eq ‹_›

theorem fields_of_decode {c : Word} {i : Instr} (h : decode c = .ok i) :
    CommandWord.ofWord c = { zero := 0, opc := i.opc } := by
  by_cases hzero : (CommandWord.ofWord c).zero = 0
  · rw [decode_of_zero_eq hzero] at h
    exact congrArg₂ CommandWord.mk hzero (opc_of_decodeOpc h)
  · rw [decode_of_zero_ne hzero] at h
    cases h

/-- The key fact: a command's encoding is the only word that decodes to it. -/
theorem decode_eq_ok_iff {c : Word} {i : Instr} : decode c = .ok i ↔ c = encode i := by
  constructor
  · intro h
    calc c
      _ = (CommandWord.ofWord c).toWord := (toWord_ofWord c).symm
      _ = encode i := by rw [fields_of_decode h, encode]
  · rintro rfl
    exact decode_encode_eq i

theorem exists_decode_error_iff {c : Word} : (∃ e, decode c = .error e) ↔ ∀ i : Instr, c ≠ encode i := by
  simp only [ne_eq, ← decode_eq_ok_iff]
  cases decode c <;> simp

/-- The encodings are the words 1 to 6. -/
theorem exists_eq_encode_iff {c : Word} : (∃ i : Instr, c = encode i) ↔ 1 ≤ c.toNat ∧ c.toNat ≤ 6 := by
  constructor
  · rintro ⟨i, rfl⟩
    cases i <;> decide
  · rintro ⟨h1, h6⟩
    have hc : c = 1 ∨ c = 2 ∨ c = 3 ∨ c = 4 ∨ c = 5 ∨ c = 6 := by bv_omega
    rcases hc with rfl | rfl | rfl | rfl | rfl | rfl
    exacts [⟨.cap, rfl⟩, ⟨.hdrser, rfl⟩, ⟨.hdrparse, rfl⟩, ⟨.embed, rfl⟩, ⟨.hide, rfl⟩, ⟨.extract, rfl⟩]

/-! ## The statements -/

/-- Settles O2: a word that decodes to a command is the command's encoding, and that encoding is well formed. -/
theorem decodeAndEncodeAgree : Obligations.DecodeAndEncodeAgree := by
  refine ⟨fun i _ => decode_encode_eq i, fun c i h => ?_⟩
  obtain rfl := decode_eq_ok_iff.mp h
  exact ⟨rfl, ofWord_encode_wf i⟩

/-- Settles O1: the six words are the six encodings, and the refused words are the ones that are no encoding. -/
theorem decodeFollowsTheOpcodeMap : Obligations.DecodeFollowsTheOpcodeMap := by
  intro c
  refine ⟨decode_eq_ok_iff, decode_eq_ok_iff, decode_eq_ok_iff, decode_eq_ok_iff, decode_eq_ok_iff, decode_eq_ok_iff, ?_⟩
  rw [exists_decode_error_iff, ← not_exists, exists_eq_encode_iff]
  omega

/-- Settles O3: the legal words are encodings; of the others, two have a bit of `[31:4]` set and two only a wrong opcode. -/
theorem sampleCommandWordsDecode : Obligations.SampleCommandWordsDecode :=
  ⟨decode_encode_eq .cap, decode_encode_eq .hdrparse, decode_encode_eq .hide, decode_encode_eq .extract,
    decode_of_zero_eq rfl, decode_of_zero_eq rfl, decode_of_zero_ne (by decide), decode_of_zero_ne (by decide)⟩

end Sys2Proof.Machine
end

section
/-! The frame of 30_encoding.md R90, bit by bit: its three parts one after the other, each most significant bit first. -/

namespace Sys2Proof.Machine

/-! ## The bits of a byte sequence -/

@[simp] theorem bytesToBits_length (bytes : List Byte) : (bytesToBits bytes).length = 8 * bytes.length := by
  simp [bytesToBits, mul_comm]

/-- Byte `j` holds the bits from `8*j` on, most significant first (40_bitcodec.md R110). -/
theorem bytesToBits_get {bytes : List Byte} {j i : Nat} {v : Byte} (hv : bytes[j]? = some v) (hi : i ≤ 7) :
    (bytesToBits bytes)[8 * j + i]? = some (v.getLsbD (7 - i)) := by
  induction bytes generalizing j with
  | nil => simp at hv
  | cons w bytes ih =>
    rw [bytesToBits_cons]
    cases j with
    | zero =>
      obtain rfl : w = v := by simpa using hv
      rw [List.getElem?_append_left (by simp; omega), Nat.mul_zero, Nat.zero_add, uintToBits_get (by omega),
        BitVec.testBit_toNat]
    | succ j =>
      rw [List.getElem?_append_right (by simp; omega), uintToBits_length, show 8 * (j + 1) + i - 8 = 8 * j + i by omega]
      exact ih (by simpa using hv)

/-! ## The bits of a header and of a frame -/

theorem serializeHeader_get_magic (n : Nat) {k : Nat} (hk : k ≤ 15) :
    (serializeHeader n)[k]? = some (Nat.testBit 0x4454 (15 - k)) := by
  rw [serializeHeader, List.getElem?_append_left (by simp; omega)]
  exact uintToBits_get (by simp; omega)

theorem serializeHeader_get_length (n : Nat) {k : Nat} (h16 : 16 ≤ k) (h47 : k ≤ 47) :
    (serializeHeader n)[k]? = some (n.testBit (47 - k)) := by
  rw [serializeHeader, List.getElem?_append_right (by simpa using h16), uintToBits_length,
    uintToBits_get (by simp; omega)]
  congr 2
  simp
  omega

theorem frame_get_header (P : List Byte) {k : Nat} (hk : k ≤ 47) : (frame P)[k]? = (serializeHeader P.length)[k]? :=
  List.getElem?_append_left (by simp; omega)

theorem frame_get_payload (P : List Byte) (k : Nat) : (frame P)[48 + k]? = (bytesToBits P)[k]? := by
  rw [frame, List.getElem?_append_right (by simp), serializeHeader_length, Nat.add_sub_cancel_left]

/-- Settles O11: the header's two fields, then the payload's bits from index 48 on. -/
theorem frameLayout : Obligations.FrameLayout := by
  refine fun P => ⟨by simp [frame], fun k hk => ?_, fun k h16 h47 => ?_, fun j i v hv hi => ?_⟩
  · rw [frame_get_header P (by omega), serializeHeader_get_magic _ hk]
  · rw [frame_get_header P h47, serializeHeader_get_length _ h16 h47]
  · rw [Nat.add_assoc, frame_get_payload, bytesToBits_get hv hi]

end Sys2Proof.Machine
end

section
/-! The values of bit sequences: a place sum, and what the integer codec makes of them (40_bitcodec.md R112, R113). -/

namespace Sys2Proof.Machine

/-! ## The value of a sequence -/

theorem bitsValue_cons (b : Bit) (bits : List Bit) :
    bitsValue (b :: bits) = b.toNat * 2 ^ bits.length + bitsValue bits := by
  simpa using bitsValue_append [b] bits

/-- The value as R111 and R113 write it: each bit at its place. -/
theorem bitsValue_eq_sum (bits : List Bit) :
    bitsValue bits = ∑ k ∈ Finset.range bits.length, (bits[k]?.getD false).toNat * 2 ^ (bits.length - 1 - k) := by
  induction bits with
  | nil => rfl
  | cons b bits ih =>
    rw [bitsValue_cons, ih, List.length_cons, Finset.sum_range_succ', add_comm]
    simp [Nat.sub_sub, Nat.add_comm]

/-! ## The bits of a number -/

theorem uintToBits_succ (v w : Nat) : uintToBits v (w + 1) = v.testBit w :: uintToBits v w := by
  simp [uintToBits, List.range_succ_eq_map, Nat.sub_sub, Nat.add_comm]

/-- The key fact: the `width` bits of a number have the value of its low `width` bits. -/
theorem bitsValue_uintToBits (v w : Nat) : bitsValue (uintToBits v w) = v % 2 ^ w := by
  induction w with
  | zero => simp [uintToBits, bitsValue, Nat.mod_one]
  | succ w ih =>
    rw [uintToBits_succ, bitsValue_cons, uintToBits_length, ih, Nat.toNat_testBit, Nat.mod_pow_succ, mul_comm, add_comm]

/-- The bits above the width do not matter: both sequences are the sequence of the same value. -/
theorem uintToBits_mod (v w : Nat) : uintToBits (v % 2 ^ w) w = uintToBits v w := by
  simpa only [bitsValue_uintToBits, uintToBits_length] using uintToBits_bitsValue (uintToBits v w)

theorem uintToBitsChecked_of_le (v : Nat) {w : Nat} (h : w ≤ 64) : uintToBitsChecked v w = some (uintToBits v w) :=
  if_pos h

theorem uintToBitsChecked_of_lt (v : Nat) {w : Nat} (h : 64 < w) : uintToBitsChecked v w = none :=
  if_neg (Nat.not_le.mpr h)

/-- Settles O8: bit `i` is bit `width - 1 - i` of the value, so the value's low `width` bits decide all of them. -/
theorem uintToBitsIsMostSignificantFirst : Obligations.UintToBitsIsMostSignificantFirst := by
  refine ⟨fun v w hw => ⟨_, uintToBitsChecked_of_le v hw, rfl, uintToBits_length v w, fun i hi => ?_,
    uintToBits_mod v w⟩, fun v _ => uintToBitsChecked_of_lt v⟩
  rw [uintToBits_get hi, Option.map_some, Nat.toNat_testBit]

/-! ## The number of a sequence -/

/-- Bits in front of 64 others weigh a multiple of `2^64` and leave the integer domain. -/
theorem bitsToUint_append_of_length_eq (a : List Bit) {b : List Bit} (hb : b.length = 64) :
    bitsToUint (a ++ b) = bitsToUint b := by
  rw [bitsToUint_eq, bitsToUint_eq, bitsValue_append, hb, Nat.mul_add_mod_self_right]

theorem bitsToUint_false_cons (bits : List Bit) : bitsToUint (false :: bits) = bitsToUint bits := by
  rw [bitsToUint_eq, bitsToUint_eq, bitsValue_cons, Bool.toNat_false, zero_mul, zero_add]

/-- Settles O9: the place sum within the domain, and beyond it the sequence cut in front of its last 64 bits. -/
theorem bitsToUintFoldsFirstBitMostSignificant : Obligations.BitsToUintFoldsFirstBitMostSignificant := by
  intro bits
  refine ⟨fun h => ?_, fun h => ?_, fun _ => bitsToUint_false_cons bits⟩
  · rw [bitsToUint_of_le h, bitsValue_eq_sum]
  · have hlast : (bits.drop (bits.length - 64)).length = 64 := by
      rw [List.length_drop]
      omega
    calc bitsToUint bits
      _ = bitsToUint (bits.take (bits.length - 64) ++ bits.drop (bits.length - 64)) := by rw [List.take_append_drop]
      _ = bitsToUint (bits.drop (bits.length - 64)) := bitsToUint_append_of_length_eq _ hlast

end Sys2Proof.Machine
end

section
/-! Bytes as bits and bits as bytes (40_bitcodec.md R110, R111), and the round trips of R114. -/

namespace Sys2Proof.Machine

/-- Settles O6: the length and the bits of a byte sequence, by the two laws of the frame's payload. -/
theorem bytesToBitsIsMostSignificantFirst : Obligations.BytesToBitsIsMostSignificantFirst :=
  fun bytes => ⟨bytesToBits_length bytes, fun _ _ _ => bytesToBits_get⟩

/-! ## Bytes to bits and back -/

theorem bytesToBits_append (a b : List Byte) : bytesToBits (a ++ b) = bytesToBits a ++ bytesToBits b :=
  List.flatMap_append

theorem bytesToBits_singleton (v : Byte) : bytesToBits [v] = uintToBits v.toNat 8 :=
  (bytesToBits_cons v []).trans (List.append_nil _)

theorem bitsToBytes_bytesToBits (bytes : List Byte) : bitsToBytes (bytesToBits bytes) = bytes := by
  induction bytes with
  | nil => rfl
  | cons v bytes ih =>
    rw [bytesToBits_cons, bitsToBytes_append _ (uintToBits_length v.toNat 8), bitsValue_uintToBits, ih,
      Nat.mod_eq_of_lt v.isLt, BitVec.ofNat_toNat, BitVec.setWidth_eq]

/-! ## Bits to bytes and back -/

@[simp] theorem bitsToBytes_length (bits : List Bit) : (bitsToBytes bits).length = bits.length / 8 := by
  simp [bitsToBytes]

/-- Byte `j` is the value of the run of eight bits from `8*j` on. -/
theorem bitsToBytes_get {bits : List Bit} {j : Nat} (hj : j < bits.length / 8) :
    (bitsToBytes bits)[j]? = some (BitVec.ofNat 8 (bitsValue ((bits.drop (8 * j)).take 8))) := by
  have hrun : ((bits.drop (8 * j)).take 8).length ≤ 64 := (List.length_take_le ..).trans (by norm_num)
  simp [bitsToBytes, hj, bitsToUint_of_le hrun]

/-- A byte holds a run of eight bits exactly. -/
theorem toNat_ofNat_bitsValue {run : List Bit} (h : run.length = 8) :
    (BitVec.ofNat 8 (bitsValue run)).toNat = bitsValue run := by
  rw [BitVec.toNat_ofNat, Nat.mod_eq_of_lt (h ▸ bitsValue_lt run)]

/-- A run of eight bits in front comes back in front. -/
theorem bytesToBits_bitsToBytes_append {run : List Bit} (rest : List Bit) (h : run.length = 8) :
    bytesToBits (bitsToBytes (run ++ rest)) = run ++ bytesToBits (bitsToBytes rest) := by
  rw [bitsToBytes_append rest h, bytesToBits_cons, toNat_ofNat_bitsValue h, ← h, uintToBits_bitsValue]

/-- The whole bytes come back, run by run; the shorter trailing run does not. -/
theorem bytesToBits_bitsToBytes (bits : List Bit) :
    bytesToBits (bitsToBytes bits) = bits.take (8 * (bits.length / 8)) := by
  induction hq : bits.length / 8 generalizing bits with
  | zero =>
    rw [bitsToBytes_short (by omega)]
    rfl
  | succ q ih =>
    have hrun : (bits.take 8).length = 8 := by
      rw [List.length_take]
      omega
    have hrest : (bits.drop 8).length / 8 = q := by
      rw [List.length_drop]
      omega
    calc bytesToBits (bitsToBytes bits)
      _ = bytesToBits (bitsToBytes (bits.take 8 ++ bits.drop 8)) := by rw [List.take_append_drop]
      _ = bits.take 8 ++ (bits.drop 8).take (8 * q) := by rw [bytesToBits_bitsToBytes_append _ hrun, ih _ hrest]
      _ = bits.take (8 * (q + 1)) := by rw [← List.take_add, Nat.mul_succ, Nat.add_comm]

theorem bytesToBits_bitsToBytes_eq_self_iff (bits : List Bit) :
    bytesToBits (bitsToBytes bits) = bits ↔ bits.length % 8 = 0 := by
  rw [bytesToBits_bitsToBytes, List.take_eq_self_iff]
  omega

/-- The bytes are those of the whole runs: both sequences give the same bits back. -/
theorem bitsToBytes_take (bits : List Bit) : bitsToBytes (bits.take (8 * (bits.length / 8))) = bitsToBytes bits := by
  rw [← bytesToBits_bitsToBytes, bitsToBytes_bytesToBits]

theorem bitsToBytes_append_short {bits tail : List Bit} (hbits : bits.length % 8 = 0) (htail : tail.length < 8) :
    bitsToBytes (bits ++ tail) = bitsToBytes bits := by
  have hlen : 8 * ((bits ++ tail).length / 8) = bits.length := by
    rw [List.length_append]
    omega
  rw [← bitsToBytes_take (bits ++ tail), hlen, List.take_left]

/-! ## The statements -/

/-- Settles O7: a byte's value is the place sum of its run, and a short tail is beyond the whole runs. -/
theorem bitsToBytesGroupsRunsOfEight : Obligations.BitsToBytesGroupsRunsOfEight := by
  refine ⟨fun bits => ⟨bitsToBytes_length bits, fun j hj => ?_⟩, fun bits tail => bitsToBytes_append_short⟩
  have hrun : ((bits.drop (8 * j)).take 8).length = 8 := by
    rw [List.length_take, List.length_drop]
    omega
  rw [bitsToBytes_get hj, Option.map_some, toNat_ofNat_bitsValue hrun, bitsValue_eq_sum, hrun]
  refine congrArg some (Finset.sum_congr rfl fun i hi => ?_)
  rw [List.getElem?_take_of_lt (Finset.mem_range.mp hi), List.getElem?_drop]

/-- Settles O10: byte by byte and run by run for the bytes; for the integers, the value of a number's bits and the bits
of a sequence's value. -/
theorem bitCodecRoundTrips : Obligations.BitCodecRoundTrips := by
  refine ⟨bitsToBytes_bytesToBits, bytesToBits_bitsToBytes, bytesToBits_bitsToBytes_eq_self_iff, fun w v hw => ?_,
    fun s hs => ?_, bytesToBits_append, bytesToBits_singleton⟩
  · rw [bitsToUint_of_le ((uintToBits_length v w).trans_le hw), bitsValue_uintToBits]
  · rw [bitsToUint_of_le hs, uintToBits_bitsValue]

end Sys2Proof.Machine
end

section
/-! Numbers in a fixed width: a sequence of at most 64 bits and its value determine each other (40_bitcodec.md R114), and
the bits of a number cut in two. -/

namespace Sys2Proof.Machine

theorem bitsToUint_uintToBits (v : Nat) {w : Nat} (hw : w ≤ 64) : bitsToUint (uintToBits v w) = v % 2 ^ w := by
  rw [bitsToUint_of_le ((uintToBits_length v w).trans_le hw), bitsValue_uintToBits]

theorem uintToBits_bitsToUint {bits : List Bit} (h : bits.length ≤ 64) :
    uintToBits (bitsToUint bits) bits.length = bits := by
  rw [bitsToUint_of_le h, uintToBits_bitsValue]

theorem bitsToUint_lt {bits : List Bit} {w : Nat} (h : bits.length ≤ w) : bitsToUint bits < 2 ^ w :=
  calc bitsToUint bits
    _ ≤ bitsValue bits := (bitsToUint_eq bits).trans_le (Nat.mod_le ..)
    _ < 2 ^ bits.length := bitsValue_lt bits
    _ ≤ 2 ^ w := Nat.pow_le_pow_right two_pos h

/-- In the integer domain a number that fits a sequence's width is the value of one sequence only. -/
theorem bitsToUint_eq_iff {bits : List Bit} {v w : Nat} (hlen : bits.length = w) (hw : w ≤ 64) (hv : v < 2 ^ w) :
    bitsToUint bits = v ↔ bits = uintToBits v w := by
  constructor
  · rintro rfl
    rw [← hlen, uintToBits_bitsToUint (hlen.trans_le hw)]
  · rintro rfl
    rw [bitsToUint_uintToBits v hw, Nat.mod_eq_of_lt hv]

theorem uintToBits_add (v m n : Nat) : uintToBits v (m + n) = uintToBits (v / 2 ^ n) m ++ uintToBits v n := by
  induction m with
  | zero => simp [uintToBits]
  | succ m ih =>
    rw [Nat.add_right_comm, uintToBits_succ, uintToBits_succ, ih, Nat.testBit_div_two_pow, List.cons_append]

end Sys2Proof.Machine
end

section
/-! The Header Codec (41_header.md): the two outcomes of `parseHeader`, the fields of a serialised header, and the `HDR`
register as a sequence. -/

namespace Sys2Proof.Machine

/-! ## Parsing -/

theorem parseHeader_of_magic_ne {bits : List Bit} (h : bitsToUint (bits.take 16) ≠ 0x4454) :
    parseHeader bits = .error .headerNotFound :=
  if_pos h

theorem parseHeader_of_magic_eq {bits : List Bit} (h : bitsToUint (bits.take 16) = 0x4454) :
    parseHeader bits = .ok { magic := 0x4454, length := BitVec.ofNat 32 (bitsToUint ((bits.drop 16).take 32)) } := by
  simp [parseHeader, h]

/-- A word holds a field of its own width. -/
theorem toNat_ofNat_bitsToUint_take (bits : List Bit) (w : Nat) :
    (BitVec.ofNat w (bitsToUint (bits.take w))).toNat = bitsToUint (bits.take w) := by
  rw [BitVec.toNat_ofNat, Nat.mod_eq_of_lt (bitsToUint_lt (List.length_take_le ..))]

/-- The Magic bit by bit (95_test_vectors.md B3.1). -/
theorem uintToBits_magic : uintToBits 0x4454 16
    = [false, true, false, false, false, true, false, false, false, true, false, true, false, true, false, false] := by
  decide

theorem bitsToUint_take_eq_magic_iff {bits : List Bit} (h : 16 ≤ bits.length) :
    bitsToUint (bits.take 16) = 0x4454 ↔ bits.take 16 = uintToBits 0x4454 16 :=
  bitsToUint_eq_iff (List.length_take_of_le h) (by norm_num) (by norm_num)

/-- Settles O12: the two outcomes of `parseHeader`, a Length that fits its field, and the one sequence of value `0x4454`. -/
theorem parsingFailsExactlyOnAnotherMagic : Obligations.ParsingFailsExactlyOnAnotherMagic := by
  refine ⟨fun bits h => ⟨if_pos h, parseHeader_of_magic_ne, fun hm => ?_, ?_⟩, fun bits h => if_neg (Nat.not_le.mpr h)⟩
  · exact ⟨_, parseHeader_of_magic_eq hm, toNat_ofNat_bitsToUint_take (bits.drop 16) 32⟩
  · rw [bitsToUint_take_eq_magic_iff (by omega), uintToBits_magic]

/-! ## The round trip of R135 -/

theorem serializeHeader_take (L : Nat) : (serializeHeader L).take 16 = uintToBits 0x4454 16 :=
  List.take_left' (uintToBits_length ..)

theorem serializeHeader_drop (L : Nat) : (serializeHeader L).drop 16 = uintToBits L 32 :=
  List.drop_left' (uintToBits_length ..)

theorem parseHeader_serializeHeader (L : Nat) :
    parseHeader (serializeHeader L) = .ok { magic := 0x4454, length := BitVec.ofNat 32 L } := by
  have hmagic : bitsToUint ((serializeHeader L).take 16) = 0x4454 := by
    rw [bitsToUint_take_eq_magic_iff (by simp), serializeHeader_take]
  have hlength : bitsToUint (((serializeHeader L).drop 16).take 32) = L % 2 ^ 32 := by
    rw [serializeHeader_drop, List.take_of_length_le (uintToBits_length ..).le, bitsToUint_uintToBits L (by norm_num)]
  rw [parseHeader_of_magic_eq hmagic, hlength, ← BitVec.toNat_ofNat, BitVec.ofNat_toNat, BitVec.setWidth_eq]

/-- A 48-bit sequence with the right Magic is what its Length serialises to. -/
theorem serializeHeader_of_magic {h : List Bit} (hlen : h.length = 48) (hm : bitsToUint (h.take 16) = 0x4454) :
    serializeHeader (bitsToUint ((h.drop 16).take 32)) = h := by
  have hdrop : (h.drop 16).length = 32 := by simp [hlen]
  calc serializeHeader (bitsToUint ((h.drop 16).take 32))
    _ = uintToBits 0x4454 16 ++ uintToBits (bitsToUint ((h.drop 16).take 32)) 32 := rfl
    _ = h.take 16 ++ uintToBits (bitsToUint (h.drop 16)) (h.drop 16).length := by
      rw [(bitsToUint_take_eq_magic_iff (by omega)).mp hm, List.take_of_length_le hdrop.le, hdrop]
    _ = h.take 16 ++ h.drop 16 := by rw [uintToBits_bitsToUint (by omega)]
    _ = h := List.take_append_drop 16 h

/-- Settles O13: the fields of a serialised header, and a sequence that parses put together from its own. -/
theorem headerRoundTrip : Obligations.HeaderRoundTrip := by
  refine ⟨fun L _ => parseHeader_serializeHeader L, fun h hd hlen hp => ?_⟩
  by_cases hm : bitsToUint (h.take 16) = 0x4454
  · obtain rfl := Except.ok.inj ((parseHeader_of_magic_eq hm).symm.trans hp)
    exact ⟨rfl, by rw [toNat_ofNat_bitsToUint_take, serializeHeader_of_magic hlen hm]⟩
  · rw [parseHeader_of_magic_ne hm] at hp
    cases hp

/-! ## The `HDR` register -/

theorem hdrOfBits_toNat {h : List Bit} (hlen : h.length = 48) : (hdrOfBits h).toNat = bitsToUint h := by
  rw [hdrOfBits, BitVec.toNat_ofNat, Nat.mod_eq_of_lt (bitsToUint_lt hlen.le)]

theorem bitsOfHdr_hdrOfBits {h : List Bit} (hlen : h.length = 48) : bitsOfHdr (hdrOfBits h) = h := by
  rw [bitsOfHdr, hdrOfBits_toNat hlen, Config.headerBits_eq, ← hlen, uintToBits_bitsToUint (by omega)]

@[simp] theorem bitsOfHdr_length (v : BitVec 48) : (bitsOfHdr v).length = 48 :=
  uintToBits_length ..

@[simp] theorem hdrOfBits_bitsOfHdr (v : BitVec 48) : hdrOfBits (bitsOfHdr v) = v := by
  apply BitVec.eq_of_toNat_eq
  rw [hdrOfBits_toNat (bitsOfHdr_length v), bitsOfHdr, bitsToUint_uintToBits _ (by simp), Config.headerBits_eq,
    Nat.mod_eq_of_lt v.isLt]

theorem bitsOfHdr_get (v : BitVec 48) {k : Nat} (hk : k < 48) : (bitsOfHdr v)[k]? = some (v.getLsbD (47 - k)) :=
  uintToBits_get hk

/-- The key fact of R133: the register's sequence is the sequence of its Magic field and then that of its Length field. -/
theorem bitsOfHdr_eq_fields (v : BitVec 48) :
    bitsOfHdr v = uintToBits (v.extractLsb' 32 16).toNat 16 ++ uintToBits (v.extractLsb' 0 32).toNat 32 := by
  rw [BitVec.extractLsb'_toNat, BitVec.extractLsb'_toNat, uintToBits_mod, uintToBits_mod, Nat.shiftRight_zero,
    Nat.shiftRight_eq_div_pow, ← uintToBits_add]
  rfl

theorem bitsToUint_magic_of_hdr (v : BitVec 48) :
    bitsToUint ((bitsOfHdr v).take 16) = (v.extractLsb' 32 16).toNat := by
  rw [bitsOfHdr_eq_fields, List.take_left' (uintToBits_length ..), bitsToUint_uintToBits _ (by norm_num),
    Nat.mod_eq_of_lt (BitVec.isLt _)]

theorem bitsToUint_length_of_hdr (v : BitVec 48) :
    bitsToUint (((bitsOfHdr v).drop 16).take 32) = (v.extractLsb' 0 32).toNat := by
  rw [bitsOfHdr_eq_fields, List.drop_left' (uintToBits_length ..), List.take_of_length_le (uintToBits_length ..).le,
    bitsToUint_uintToBits _ (by norm_num), Nat.mod_eq_of_lt (BitVec.isLt _)]

theorem bitsToUint_serializeHeader (L : Nat) : bitsToUint (serializeHeader L) = 0x4454 * 2 ^ 32 + L % 2 ^ 32 := by
  rw [bitsToUint_of_le (by simp), serializeHeader, bitsValue_append, uintToBits_length, bitsValue_uintToBits,
    bitsValue_uintToBits]
  rfl

/-- Settles O14: the round trips of 48-bit numbers and sequences, and the register's sequence cut between its fields. -/
theorem hdrRegisterAndSequencesAgree : Obligations.HdrRegisterAndSequencesAgree :=
  ⟨fun _ hlen => ⟨bitsOfHdr_hdrOfBits hlen, hdrOfBits_toNat hlen⟩,
    fun v => ⟨hdrOfBits_bitsOfHdr v, bitsOfHdr_length v, fun _ => bitsOfHdr_get v, bitsToUint_magic_of_hdr v,
      bitsToUint_length_of_hdr v⟩,
    bitsToUint_serializeHeader⟩

end Sys2Proof.Machine
end

section
/-! The commands `HDRSER` and `HDRPARSE` on the register's two fields (41_header.md R136, R137). -/

namespace Sys2Proof.Machine

theorem hdrOfBits_serializeHeader (L : BitVec 32) : hdrOfBits (serializeHeader L.toNat) = (0x4454 : BitVec 16) ++ L := by
  have hbits : bitsOfHdr ((0x4454 : BitVec 16) ++ L) = serializeHeader L.toNat := by
    rw [bitsOfHdr_eq_fields, hdr_high, hdr_low]
    rfl
  rw [← hbits, hdrOfBits_bitsOfHdr]

/-- Settles O15: the serialised header's register value, in the equation of `HDRSER`. -/
theorem hdrserWritesTheSerialisedHeader : Obligations.HdrserWritesTheSerialisedHeader := by
  intro s
  rw [exec_hdrser, hdrOfBits_serializeHeader]
  rfl

theorem parseHeader_bitsOfHdr_of_eq {v : BitVec 48} (h : v.extractLsb' 32 16 = 0x4454) :
    parseHeader (bitsOfHdr v) = .ok { magic := 0x4454, length := v.extractLsb' 0 32 } := by
  rw [parseHeader_of_magic_eq (by rw [bitsToUint_magic_of_hdr, h]; rfl), bitsToUint_length_of_hdr, BitVec.ofNat_toNat,
    BitVec.setWidth_eq]

theorem parseHeader_bitsOfHdr_of_ne {v : BitVec 48} (h : v.extractLsb' 32 16 ≠ 0x4454) :
    parseHeader (bitsOfHdr v) = .error .headerNotFound := by
  refine parseHeader_of_magic_ne fun hm => h (BitVec.eq_of_toNat_eq ?_)
  rw [← bitsToUint_magic_of_hdr, hm]
  rfl

/-- Settles O16: the register's fields decide how its sequence parses, and each outcome has its equation of `HDRPARSE`. -/
theorem hdrparseReadsTheHeaderRegister : Obligations.HdrparseReadsTheHeaderRegister :=
  fun _ => ⟨fun h => exec_hdrparse_of_ok (parseHeader_bitsOfHdr_of_eq h),
    fun h => exec_hdrparse_of_error (parseHeader_bitsOfHdr_of_ne h)⟩

end Sys2Proof.Machine
end

section
/-! LSB replacement (42_engine.md R153): bit 0 is the new bit and the others stay. -/

namespace Sys2Proof.Machine

@[simp] theorem getLsbD_setLSB (v : Sample) (b : Bit) (i : Nat) :
    (setLSB v b).getLsbD i = if i = 0 then b else v.getLsbD i := by
  rw [setLSB, BitVec.getLsbD_append, BitVec.getLsbD_ofBool, BitVec.getLsbD_extractLsb']
  cases i with
  | zero => simp
  | succ i =>
    have hhigh : ¬i < 7 → v.getLsbD (1 + i) = false := fun h => BitVec.getLsbD_of_ge v _ (show 8 ≤ 1 + i by omega)
    by_cases hi : i < 7 <;> simp [hi, hhigh, Nat.add_comm i 1]

theorem toNat_lsb (v : Sample) : (v.getLsbD 0).toNat = v.toNat % 2 := by
  rw [← BitVec.testBit_toNat, Nat.toNat_testBit, pow_zero, Nat.div_one]

/-- Halving drops bit 0, and it does not see the bit put in. -/
theorem toNat_setLSB_div_two (v : Sample) (b : Bit) : (setLSB v b).toNat / 2 = v.toNat / 2 := by
  refine Nat.eq_of_testBit_eq fun i => ?_
  rw [Nat.testBit_div_two, Nat.testBit_div_two, BitVec.testBit_toNat, BitVec.testBit_toNat, getLsbD_setLSB,
    if_neg i.succ_ne_zero]

theorem toNat_setLSB (v : Sample) (b : Bit) : (setLSB v b).toNat = v.toNat - (v.getLsbD 0).toNat + b.toNat := by
  have hhigh := toNat_setLSB_div_two v b
  have hlow : b.toNat = (setLSB v b).toNat % 2 := by rw [← toNat_lsb, getLsbD_setLSB, if_pos rfl]
  rw [toNat_lsb]
  omega

@[simp] theorem setLSB_setLSB (v : Sample) (a b : Bit) : setLSB (setLSB v a) b = setLSB v b := by
  refine BitVec.eq_of_getLsbD_eq fun i _ => ?_
  simp only [getLsbD_setLSB]
  split <;> rfl

theorem setLSB_eq_self_iff (v : Sample) (b : Bit) : setLSB v b = v ↔ b = v.getLsbD 0 := by
  constructor
  · intro h
    rw [← h, getLsbD_setLSB, if_pos rfl]
  · rintro rfl
    refine BitVec.eq_of_getLsbD_eq fun i _ => ?_
    rw [getLsbD_setLSB]
    split
    · subst_vars; rfl
    · rfl

/-- Settles O17: bit by bit, as a number, and the four corners by their bits. -/
theorem setLsbReplacesBitZeroAlone : Obligations.SetLsbReplacesBitZeroAlone :=
  fun v a b => ⟨getLsbD_setLSB v b, toNat_setLSB v b, setLSB_setLSB v a b, by decide, by decide, by decide, by decide⟩

end Sys2Proof.Machine
end

section
/-! Scan index and stream index (42_engine.md R151), and the sample a stream index names. -/

namespace Sys2Proof.Machine

/-! ## The scan index -/

theorem scanIndex_lt {W H x y : Nat} (hx : x < W) (hy : y < H) : y * W + x < W * H :=
  calc y * W + x
    _ < (y + 1) * W := by rw [Nat.succ_mul]; omega
    _ ≤ H * W := Nat.mul_le_mul_right W hy
    _ = W * H := Nat.mul_comm H W

theorem scanIndex_mod {W x : Nat} (hx : x < W) (y : Nat) : (y * W + x) % W = x := by
  rw [Nat.mul_add_mod', Nat.mod_eq_of_lt hx]

theorem scanIndex_div {W x : Nat} (hx : x < W) (y : Nat) : (y * W + x) / W = y := by
  rw [Nat.mul_comm, Nat.mul_add_div (by omega), Nat.div_eq_of_lt hx, Nat.add_zero]

theorem scan_get_scanIndex {W H x y : Nat} (hx : x < W) (hy : y < H) : (scan W H)[y * W + x]? = some (x, y) := by
  rw [scan_get (scanIndex_lt hx hy), scanIndex_mod hx, scanIndex_div hx]

/-! ## The stream index -/

theorem streamIndex_lt {W H x y : Nat} (c : Fin 3) (hx : x < W) (hy : y < H) :
    3 * (y * W + x) + c < W * H * 3 := by
  have := scanIndex_lt hx hy
  omega

theorem lsbStream_get_streamIndex (G : Grid) {W H x y : Nat} (c : Fin 3) (hx : x < W) (hy : y < H) :
    (lsbStream G W H)[3 * (y * W + x) + c]? = some (((G x y).ch c).getLsbD 0) :=
  flatMap_lsbs_get G (scan W H) _ (x, y) c (scan_get_scanIndex hx hy)

/-- Settles O18: division with remainder by `W` and by 3, and the stream as the pixels of the scan, three bits each. -/
theorem streamIndexFollowsScanOrder : Obligations.StreamIndexFollowsScanOrder := by
  refine fun G W H => ⟨lsbStream_length G W H, fun x y c hx hy => ?_⟩
  exact ⟨scanIndex_lt hx hy, scanIndex_mod hx y, scanIndex_div hx y, scan_get_scanIndex hx hy,
    streamIndex_lt c hx hy, by omega, by omega, lsbStream_get_streamIndex G c hx hy⟩

/-- The sample of stream index `k`. -/
def sampleAt (G : Grid) (W k : Nat) : Sample :=
  (G (k / 3 % W) (k / 3 / W)).ch (Fin.ofNat 3 k)

theorem lsbStream_get_sampleAt (G : Grid) {W H k : Nat} (hk : k < W * H * 3) :
    (lsbStream G W H)[k]? = some ((sampleAt G W k).getLsbD 0) :=
  lsbStream_get G hk

end Sys2Proof.Machine
end

section
/-! What `embed` does to a grid (42_engine.md R155, R156), sample by sample. -/

namespace Sys2Proof.Machine

/-! ## One sample -/

theorem embedSample_lsb (v : Sample) (b : Option Bit) : (embedSample v b).getLsbD 0 = b.getD (v.getLsbD 0) := by
  cases b with
  | none => rfl
  | some b => exact getLsbD_setLSB v b 0

theorem embedSample_high (v : Sample) (b : Option Bit) {i : Nat} (hi : 1 ≤ i) :
    (embedSample v b).getLsbD i = v.getLsbD i := by
  cases b with
  | none => rfl
  | some b => rw [embedSample, getLsbD_setLSB, if_neg (by omega)]

@[simp] theorem embedSample_embedSample (v : Sample) (b : Option Bit) :
    embedSample (embedSample v b) b = embedSample v b := by
  cases b <;> simp [embedSample]

/-! ## The grid -/

theorem pixel_ext {p q : Pixel} (hch : ∀ c, p.ch c = q.ch c) (ha : p.a = q.a) : p = q := by
  obtain ⟨r, g, b, a⟩ := p
  obtain ⟨r', g', b', a'⟩ := q
  obtain rfl : r = r' := hch 0
  obtain rfl : g = g' := hch 1
  obtain rfl : b = b' := hch 2
  obtain rfl : a = a' := ha
  rfl

theorem embed_embed (G : Grid) (W : Nat) (bits : List Bit) : embed (embed G W bits) W bits = embed G W bits := by
  funext x y
  exact pixel_ext (fun c => by simp only [embed_ch, embedSample_embedSample]) rfl

/-- Stream index `k` names the sample that takes bit `k`. -/
theorem sampleAt_embed (G : Grid) (W : Nat) (bits : List Bit) (k : Nat) :
    sampleAt (embed G W bits) W k = embedSample (sampleAt G W k) bits[k]? := by
  have hk : 3 * (k / 3 / W * W + k / 3 % W) + (Fin.ofNat 3 k).val = k := by
    rw [Nat.div_add_mod', Fin.val_ofNat, Nat.div_add_mod]
  rw [sampleAt, embed_ch, hk]
  rfl

/-! ## Its stream -/

theorem lsbStream_embed_get {W H k : Nat} (G : Grid) (bits : List Bit) (hk : k < W * H * 3) :
    (lsbStream (embed G W bits) W H)[k]? = some (bits[k]?.getD ((sampleAt G W k).getLsbD 0)) := by
  rw [lsbStream_get_sampleAt _ hk, sampleAt_embed, embedSample_lsb]

theorem lsbStream_embed_get_of_lt {W H k : Nat} (G : Grid) {bits : List Bit} (hk : k < W * H * 3)
    (hbits : k < bits.length) : (lsbStream (embed G W bits) W H)[k]? = bits[k]? := by
  rw [lsbStream_embed_get G bits hk, List.getElem?_eq_getElem hbits, Option.getD_some]

theorem lsbStream_embed_get_of_ge {W H k : Nat} (G : Grid) {bits : List Bit} (hk : k < W * H * 3)
    (hbits : bits.length ≤ k) : (lsbStream (embed G W bits) W H)[k]? = (lsbStream G W H)[k]? := by
  rw [lsbStream_embed_get G bits hk, List.getElem?_eq_none hbits, Option.getD_none, lsbStream_get_sampleAt G hk]

/-! ## The samples that differ -/

theorem sampleAt_embed_ne_iff {W H k : Nat} (G : Grid) {bits : List Bit} (hk : k < W * H * 3) (hbits : k < bits.length) :
    sampleAt (embed G W bits) W k ≠ sampleAt G W k ↔ bits[k]? ≠ (lsbStream G W H)[k]? := by
  rw [sampleAt_embed, lsbStream_get_sampleAt G hk, List.getElem?_eq_getElem hbits, embedSample, ne_eq, ne_eq,
    setLSB_eq_self_iff, Option.some_inj]

theorem sampleAt_embed_of_ge (G : Grid) (W : Nat) {bits : List Bit} {k : Nat} (hbits : bits.length ≤ k) :
    sampleAt (embed G W bits) W k = sampleAt G W k := by
  rw [sampleAt_embed, List.getElem?_eq_none hbits, embedSample]

theorem countP_range_of_beyond {p : Nat → Bool} {m n : Nat} (hmn : m ≤ n) (hp : ∀ k, m ≤ k → k < n → p k = false) :
    (List.range n).countP p = (List.range m).countP p := by
  obtain ⟨d, rfl⟩ := Nat.exists_eq_add_of_le hmn
  have hrest : ((List.range d).map fun k => m + k).countP p = 0 := by
    simp only [List.countP_eq_zero, List.mem_map, List.mem_range]
    rintro _ ⟨k, hk, rfl⟩
    rw [hp _ (by omega) (by omega)]
    exact Bool.false_ne_true
  rw [List.range_add, List.countP_append, hrest, Nat.add_zero]

theorem countP_changed_samples (G : Grid) (W H : Nat) (bits : List Bit) :
    (List.range (W * H * 3)).countP (fun k => decide (sampleAt (embed G W bits) W k ≠ sampleAt G W k))
      = (List.range (min bits.length (W * H * 3))).countP (fun k => decide (bits[k]? ≠ (lsbStream G W H)[k]?)) := by
  rw [countP_range_of_beyond (Nat.min_le_right bits.length _)]
  · refine List.countP_congr fun k hk => ?_
    have hk : k < min bits.length (W * H * 3) := List.mem_range.mp hk
    have hT : k < W * H * 3 := hk.trans_le (Nat.min_le_right ..)
    rw [decide_eq_true_iff, decide_eq_true_iff, sampleAt_embed_ne_iff G hT (hk.trans_le (Nat.min_le_left ..))]
  · intro k hmin hk
    rw [sampleAt_embed_of_ge G W (by omega)]
    exact decide_eq_false fun h => h rfl

/-- Settles O20: the stream and the changed samples by stream index, the rest sample by sample. -/
theorem embedProperties : Obligations.EmbedProperties := by
  refine fun G W H bits => ⟨fun k hk => ?_, fun k hmin hk => ?_, embed_a G W bits, fun x y c i hi => ?_,
    embed_embed G W bits, countP_changed_samples G W H bits⟩
  · exact lsbStream_embed_get_of_lt G (by omega) (by omega)
  · exact lsbStream_embed_get_of_ge G hk (by omega)
  · rw [embed_ch, embedSample_high _ _ hi]

end Sys2Proof.Machine
end

section
/-! The engine's `extract` (42_engine.md R160, R162): an equation for each of its tests, and a frame read back (R165). -/

namespace Sys2Proof.Machine

/-! ## The tests in their order -/

theorem extract_of_short (G : Grid) {W H : Nat} (hT : totalBits W H < 48) : extract G W H = .error .truncatedData := by
  simp only [extract, lsbStream_length]
  exact if_pos hT

theorem extract_of_header_error {G : Grid} {W H : Nat} {e : ErrorKind} (hT : 48 ≤ totalBits W H)
    (hp : parseHeader ((lsbStream G W H).take 48) = .error e) : extract G W H = .error e := by
  simp only [extract, lsbStream_length, Config.headerBits_eq, if_neg hT.not_gt, hp]

theorem extract_of_length_gt {G : Grid} {W H : Nat} {hdr : Header} (hT : 48 ≤ totalBits W H)
    (hp : parseHeader ((lsbStream G W H).take 48) = .ok hdr) (hl : maxCapacity W H < hdr.length.toNat) :
    extract G W H = .error .invalidLength := by
  simp only [extract, lsbStream_length, Config.headerBits_eq, if_neg hT.not_gt, hp, if_pos hl]

theorem extract_of_length_le {G : Grid} {W H : Nat} {hdr : Header} (hT : 48 ≤ totalBits W H)
    (hp : parseHeader ((lsbStream G W H).take 48) = .ok hdr) (hl : hdr.length.toNat ≤ maxCapacity W H) :
    extract G W H = .ok (((lsbStream G W H).drop 48).take (8 * hdr.length.toNat)) := by
  have hneeded := neededBits_le_totalBits hT.not_gt hl
  have hcount : neededBits hdr.length.toNat - 48 = 8 * hdr.length.toNat := by
    rw [neededBits_eq, Nat.add_sub_cancel_left, Nat.mul_comm]
  simp only [extract, lsbStream_length, Config.headerBits_eq, if_neg hT.not_gt, hp, if_neg hl.not_gt,
    if_neg hneeded.not_gt, List.drop_take, hcount]

/-! ## The header at the front of a stream -/

theorem take_magic_take (bits : List Bit) : (bits.take 48).take 16 = bits.take 16 := by
  rw [List.take_take]
  rfl

theorem take_length_take (bits : List Bit) : ((bits.take 48).drop 16).take 32 = (bits.drop 16).take 32 := by
  rw [List.drop_take, List.take_take]
  rfl

theorem parseHeader_take_of_magic_ne {bits : List Bit} (hm : bitsToUint (bits.take 16) ≠ 0x4454) :
    parseHeader (bits.take 48) = .error .headerNotFound :=
  parseHeader_of_magic_ne (by rwa [take_magic_take])

theorem parseHeader_take_of_magic_eq {bits : List Bit} (hm : bitsToUint (bits.take 16) = 0x4454) :
    parseHeader (bits.take 48)
      = .ok { magic := 0x4454, length := BitVec.ofNat 32 (bitsToUint ((bits.drop 16).take 32)) } := by
  rw [parseHeader_of_magic_eq (by rwa [take_magic_take]), take_length_take]

/-- Settles O23: the equation of each test, with the header's fields as the stream holds them. -/
theorem extractFunctionFollowsItsTests : Obligations.ExtractFunctionFollowsItsTests := by
  refine fun G W H => ⟨extract_of_short G, fun hT => ⟨fun hm => ?_, fun hm => ?_, fun hm => ?_⟩⟩
  · exact extract_of_header_error hT (parseHeader_take_of_magic_ne hm)
  all_goals
    have hp := parseHeader_take_of_magic_eq hm
    rw [← toNat_ofNat_bitsToUint_take ((lsbStream G W H).drop 16) 32]
  · exact extract_of_length_gt hT hp
  · exact extract_of_length_le hT hp

/-- Settles O22: on a grid that holds a header the only errors are the header's. -/
theorem truncationOnlyOnShortGrids : Obligations.TruncationOnlyOnShortGrids := by
  refine fun G W H => ⟨⟨fun h => ?_, extract_of_short G⟩, fun L hT hL => neededBits_le_totalBits hT.not_gt hL⟩
  by_contra hT
  rcases extract_error_of_header hT h with he | he <;> cases he

/-! ## A frame read back -/

@[simp] theorem frame_length (P : List Byte) : (frame P).length = 48 + 8 * P.length := by
  simp [frame]

theorem frame_length_le_totalBits {W H : Nat} {P : List Byte} (hT : 48 ≤ totalBits W H)
    (hP : P.length ≤ maxCapacity W H) : (frame P).length ≤ totalBits W H := by
  rw [frame_length, Nat.mul_comm]
  exact neededBits_le_totalBits hT.not_gt hP

theorem prefix_lsbStream_embed (G : Grid) {W H : Nat} {bits : List Bit} (hbits : bits.length ≤ totalBits W H) :
    bits <+: lsbStream (embed G W bits) W H := by
  refine List.prefix_iff_getElem?.mpr fun k hk => ?_
  rw [lsbStream_embed_get_of_lt G (hk.trans_le hbits) hk, List.getElem?_eq_getElem hk]

theorem take_of_frame_prefix {P : List Byte} {bits : List Bit} (h : frame P <+: bits) :
    bits.take 48 = serializeHeader P.length := by
  obtain ⟨rest, rfl⟩ := h
  rw [frame, List.append_assoc, List.take_left' (serializeHeader_length _)]

theorem take_drop_of_frame_prefix {P : List Byte} {bits : List Bit} (h : frame P <+: bits) :
    (bits.drop 48).take (8 * P.length) = bytesToBits P := by
  obtain ⟨rest, rfl⟩ := h
  rw [frame, List.append_assoc, List.drop_left' (serializeHeader_length _), List.take_left' (bytesToBits_length P)]

/-- A stream that begins with a frame within the capacity gives the frame's payload. -/
theorem extract_of_frame_prefix {G : Grid} {W H : Nat} {P : List Byte} (hT : 48 ≤ totalBits W H)
    (hP : P.length ≤ maxCapacity W H) (hlen : P.length < 2 ^ 32) (h : frame P <+: lsbStream G W H) :
    extract G W H = .ok (bytesToBits P) := by
  have hword : (BitVec.ofNat 32 P.length).toNat = P.length := by rw [BitVec.toNat_ofNat, Nat.mod_eq_of_lt hlen]
  have hp := (congrArg parseHeader (take_of_frame_prefix h)).trans (parseHeader_serializeHeader P.length)
  rw [extract_of_length_le hT hp (hword.trans_le hP), hword, take_drop_of_frame_prefix h]

theorem extractService_of_ok {G : Grid} {W H : Nat} {bits : List Bit} (h : extract G W H = .ok bits) :
    extractService G W H = .ok (bitsToBytes bits) := by
  simp only [extractService, h]

/-- Settles O24: the embedded frame stands at the front of the stream, its header is the one serialised, and its payload's
bits are those behind the header. -/
theorem extractInvertsEmbedOnAFrame : Obligations.ExtractInvertsEmbedOnAFrame := by
  intro G W H P hW hH hT hP
  have hfits := frame_length_le_totalBits hT hP
  have hprefix := prefix_lsbStream_embed G hfits
  have hlen : P.length < 2 ^ 32 := (hP.trans (maxCapacity_le_of_dims hW hH)).trans_lt (by norm_num)
  have hextract := extract_of_frame_prefix hT hP hlen hprefix
  refine ⟨hfits, fun k hk => lsbStream_embed_get_of_lt G (hk.trans_le hfits) hk, ?_, hextract, ?_⟩
  · rw [take_of_frame_prefix hprefix, parseHeader_serializeHeader]
  · rw [extractService_of_ok hextract, bitsToBytes_bytesToBits]

end Sys2Proof.Machine
end

section
/-! The command `EMBED` (42_engine.md R170): the payload's bits by stream index, and the rectangle it leaves. -/

namespace Sys2Proof.Machine

/-! ## The bits offered -/

theorem payload_get (s : State) {n j : Nat} (hj : j < n) : (s.payload n)[j]? = some (s.payRead j) := by
  simp [State.payload, hj]

@[simp] theorem payload_length (s : State) (n : Nat) : (s.payload n).length = n := by
  simp [State.payload]

/-- Bit `k` of a payload is bit `7 - k % 8` of its byte `k / 8`. -/
theorem bytesToBits_payload_get (s : State) {n k : Nat} (hk : k < 8 * n) :
    (bytesToBits (s.payload n))[k]? = some ((s.payRead (k / 8)).getLsbD (7 - k % 8)) := by
  have h := bytesToBits_get (payload_get s (show k / 8 < n by omega)) (show k % 8 ≤ 7 by omega)
  rwa [Nat.div_add_mod] at h

/-- The bytes read are those with a bit inside the payload and inside the stream. -/
theorem lt_bytesRead_iff {len T a : Nat} : a < bytesRead (8 * len) T ↔ a < len ∧ 8 * a < T := by
  unfold bytesRead
  omega

/-- Inside the stream `EMBED` offers the bits of all `PLEN` bytes: those it does not read fall beyond. -/
theorem embedBits_get (s : State) {k : Nat} (hk : k < totalBits s.W s.H) :
    s.embedBits[k]? =
      if k < 8 * s.plen.toNat then some ((s.payRead (k / 8)).getLsbD (7 - k % 8)) else none := by
  have hread := lt_bytesRead_iff (len := s.plen.toNat) (T := totalBits s.W s.H) (a := k / 8)
  unfold State.embedBits
  split
  case isTrue hp => exact bytesToBits_payload_get s (by omega)
  case isFalse hp =>
    refine List.getElem?_eq_none ?_
    rw [bytesToBits_length, payload_length]
    omega

theorem embedBits_congr_pay {s : State} {m : List Host.Cell}
    (h : ∀ a : Nat, a < s.plen.toNat → 8 * a < totalBits s.W s.H → State.payRead { s with pay := m } a = s.payRead a) :
    State.embedBits { s with pay := m } = s.embedBits := by
  refine congrArg bytesToBits (List.map_congr_left fun a ha => ?_)
  obtain ⟨hlen, hT⟩ := lt_bytesRead_iff.mp (List.mem_range.mp ha)
  exact h a hlen hT

/-! ## The rectangle written -/

@[simp] theorem pixRead_finish (e : Option ErrorKind) (s : State) (b : Bank) (x y : Nat) :
    (finish e s).pixRead b x y = s.pixRead b x y := rfl

/-- Writing a rectangle touches no field but the two banks. -/
theorem writeRect_frame (s : State) (b : Bank) (G : Grid) :
    s.writeRect b G = { s with grid0 := (s.writeRect b G).grid0, grid1 := (s.writeRect b G).grid1 } := by
  rcases bank_cases b with rfl | rfl <;> rfl

theorem writeRect_with_pay (s : State) (b : Bank) (G : Grid) (m : List Host.Cell) :
    State.writeRect { s with pay := m } b G = { s.writeRect b G with pay := m } := by
  rcases bank_cases b with rfl | rfl <;> rfl

/-- Channel `c` of an embedded pixel takes bit `k` of the payload, if the payload has it. -/
theorem embed_embedBits_ch (s : State) {x y : Nat} (c : Fin 3) (hx : x < s.W) (hy : y < s.H) :
    (embed (s.grid s.src) s.W s.embedBits x y).ch c
      = if 3 * (y * s.W + x) + c < 8 * s.plen.toNat then
          setLSB ((s.pixRead s.src x y).ch c)
            ((s.payRead ((3 * (y * s.W + x) + c) / 8)).getLsbD (7 - (3 * (y * s.W + x) + c) % 8))
        else (s.pixRead s.src x y).ch c := by
  rw [embed_ch, embedBits_get s (streamIndex_lt c hx hy)]
  split <;> rfl

/-- Settles O21: the rectangle of the destination bank holds the embedded grid, whose bits are those of the bytes read. -/
theorem embedCommandEmbedsThePayloadBits : Obligations.EmbedCommandEmbedsThePayloadBits := by
  refine fun s => ⟨_, exec_embed s, ?_, bank_src_writeRect_dst s _, fun x y c hx hy => ?_, fun x y hx hy => ?_,
    fun x y hx _ hout => ?_, fun m hm => ?_⟩
  · rw [writeRect_frame]
    rfl
  · rw [pixRead_finish]
    exact (congrArg (Pixel.ch · c) (pixRead_writeRect_inside s s.dst _ hx hy)).trans (embed_embedBits_ch s c hx hy)
  · exact (congrArg Pixel.a (pixRead_writeRect_inside s s.dst _ hx hy)).trans (embed_a ..)
  · exact pixRead_writeRect_outside s _ hx fun ⟨_, hin⟩ => hout hin
  · rw [exec_embed, embedBits_congr_pay hm, writeRect_with_pay]
    rfl

end Sys2Proof.Machine
end

section
/-! What `EXTRACT` sees of the grids (42_engine.md R150): the LSB stream of the source bank and nothing else. -/

namespace Sys2Proof.Machine

theorem lsbs_congr {p q : Pixel} (h : ∀ c : Fin 3, (p.ch c).getLsbD 0 = (q.ch c).getLsbD 0) : p.lsbs = q.lsbs := by
  have hr : p.r.getLsbD 0 = q.r.getLsbD 0 := h 0
  have hg : p.g.getLsbD 0 = q.g.getLsbD 0 := h 1
  have hb : p.b.getLsbD 0 = q.b.getLsbD 0 := h 2
  rw [Pixel.lsbs, hr, hg, hb, Pixel.lsbs]

theorem lsbStream_congr {G G' : Grid} {W H : Nat}
    (h : ∀ (x y : Nat) (c : Fin 3), x < W → y < H → ((G x y).ch c).getLsbD 0 = ((G' x y).ch c).getLsbD 0) :
    lsbStream G W H = lsbStream G' W H := by
  refine List.flatMap_congr fun q hq => ?_
  obtain ⟨hx, hy⟩ := mem_scan.mp hq
  exact lsbs_congr fun c => h q.1 q.2 c hx hy

theorem extract_congr {G G' : Grid} {W H : Nat} (h : lsbStream G W H = lsbStream G' W H) :
    extract G W H = extract G' W H := by
  simp only [extract, h]

theorem extractService_congr {G G' : Grid} {W H : Nat} (h : lsbStream G W H = lsbStream G' W H) :
    extractService G W H = extractService G' W H := by
  simp only [extractService, extract_congr h]

theorem streamHeader_eq_of_stream {s t : State}
    (h : lsbStream (t.grid t.src) t.W t.H = lsbStream (s.grid s.src) s.W s.H) : t.streamHeader = s.streamHeader := by
  rw [State.streamHeader, h, State.streamHeader]

/-- Settles O41: the header and the payload found are functions of the source bank's stream. -/
theorem extractSeesOnlyTheLsbs : Obligations.ExtractSeesOnlyTheLsbs := by
  intro s g0 g1 h
  have hstream := lsbStream_congr h
  have hfound : State.found { s with grid0 := g0, grid1 := g1 } = s.found := extractService_congr hstream
  have hheader : State.streamHeader { s with grid0 := g0, grid1 := g1 } = s.streamHeader :=
    streamHeader_eq_of_stream hstream
  by_cases hT : totalBits s.W s.H < Config.headerBits
  · exact ⟨_, exec_extract_of_short hT, exec_extract_of_short hT⟩
  · cases hf : s.found with
    | error e =>
      refine ⟨_, exec_extract_of_error hT hf, ?_⟩
      rw [exec_extract_of_error (s := { s with grid0 := g0, grid1 := g1 }) hT (hfound.trans hf), hheader]
      rfl
    | ok bytes =>
      refine ⟨_, exec_extract_of_ok hT hf, ?_⟩
      rw [exec_extract_of_ok (s := { s with grid0 := g0, grid1 := g1 }) hT (hfound.trans hf), hheader]
      rfl

end Sys2Proof.Machine
end

section
/-! A second embedding (42_engine.md R156 (e), (f)): it writes what already stands there. -/

namespace Sys2Proof.Machine

variable {i : Instr} {s t : State}

/-! ## A rectangle written twice -/

/-- Every address is the key of a pixel of the space's columns. -/
theorem exists_gridKey (a : Nat) : ∃ x y : Nat, x < 2 ^ 16 ∧ gridKey x y = a :=
  ⟨a % 2 ^ 16, a / 2 ^ 16, Nat.mod_lt _ (by norm_num), Nat.div_add_mod' a (2 ^ 16)⟩

theorem bank_read_writeRect (s : State) (b : Bank) (G : Grid) {x y : Nat} (hx : x < 2 ^ 16) :
    ((s.writeRect b G).bank b).read (gridKey x y)
      = if x < s.W ∧ y < s.H then some (G x y) else (s.bank b).read (gridKey x y) := by
  have hcols : ∀ q ∈ scan s.W s.H, q.1 < 2 ^ 16 := fun q hq => (mem_scan.mp hq).1.trans s.width.isLt
  simp only [State.writeRect, bank_setBank_same, memory_read_foldl_write G _ hcols _ hx, mem_scan]

theorem bank_writeRect_wf {b : Bank} (G : Grid) (hs : Memory.wf (s.bank b)) : Memory.wf ((s.writeRect b G).bank b) := by
  rw [State.writeRect, bank_setBank_same]
  refine memory_wf_foldl_write G _ (fun q hq => ?_) hs
  obtain ⟨hx, hy⟩ := mem_scan.mp hq
  exact ⟨hx.trans s.width.isLt, hy.trans s.height.isLt⟩

@[simp] theorem setBank_bank (s : State) (b : Bank) : s.setBank b (s.bank b) = s := by
  rcases bank_cases b with rfl | rfl <;> rfl

theorem writeRect_eq_setBank (s : State) (b : Bank) (G : Grid) :
    s.writeRect b G = s.setBank b ((s.writeRect b G).bank b) := by
  rw [State.writeRect, bank_setBank_same]

/-- A bank that holds a written rectangle is not changed by writing it again. -/
theorem writeRect_eq_self {b : Bank} {G : Grid} (hs : Memory.wf (s.bank b)) (hW : t.W = s.W) (hH : t.H = s.H)
    (hbank : t.bank b = (s.writeRect b G).bank b) : t.writeRect b G = t := by
  have hwf : Memory.wf (t.bank b) := hbank ▸ bank_writeRect_wf G hs
  have hsame : (t.writeRect b G).bank b = t.bank b := by
    refine memory_ext (bank_writeRect_wf G hwf) hwf fun a => ?_
    obtain ⟨x, y, hx, rfl⟩ := exists_gridKey a
    rw [bank_read_writeRect t b G hx, hbank, bank_read_writeRect s b G hx, hW, hH]
    split <;> rfl
  rw [writeRect_eq_setBank, hsame, setBank_bank]

/-! ## What an embedding reads is what it leaves -/

/-- What `EMBED` and `HIDE` read but for the payload's bytes: the settings and the source grid. -/
theorem exec_keeps_sources (h : exec i s = .next t) :
    t.src = s.src ∧ t.W = s.W ∧ t.H = s.H ∧ t.grid s.src = s.grid s.src := by
  obtain ⟨hsrc, hwidth, hheight, hbank, -⟩ := commandsWriteOnlyTheirColumns i s t h
  exact ⟨hsrc, congrArg BitVec.toNat hwidth, congrArg BitVec.toNat hheight,
    funext₂ fun x y => pixRead_congr hbank (exec_powerUp h) x y⟩

theorem exec_keeps_payload (hi : i = .embed ∨ i = .hide) (h : exec i s = .next t) :
    t.plen = s.plen ∧ ∀ n, t.payload n = s.payload n := by
  obtain ⟨-, -, -, -, -, hplen, -, hpay, -⟩ := commandsWriteOnlyTheirColumns i s t h
  have hne : i ≠ .hdrparse ∧ i ≠ .extract := by rcases hi with rfl | rfl <;> decide
  exact ⟨hplen hne.1 hne.2, fun n =>
    List.map_congr_left fun a _ => payRead_congr (hpay hne.2) (exec_powerUp h) a⟩

theorem embed_twice (hs : Memory.wf (s.bank s.dst)) (h : exec .embed s = .next t) : exec .embed t = .next t := by
  obtain ⟨hsrc, hW, hH, hgrid⟩ := exec_keeps_sources h
  obtain ⟨hplen, hpay⟩ := exec_keeps_payload (.inl rfl) h
  have hdst : t.dst = s.dst := congrArg (1 - ·) hsrc
  have hbits : t.embedBits = s.embedBits := by rw [State.embedBits, hplen, hW, hH, hpay, State.embedBits]
  rw [exec_embed, hdst, hsrc, hgrid, hW, hbits]
  obtain rfl := next_unique h (exec_embed s)
  rw [writeRect_eq_self hs hW hH rfl]
  rfl

theorem hide_twice (hs : Memory.wf (s.bank s.dst)) (h : exec .hide s = .next t) : exec .hide t = .next t := by
  obtain ⟨hsrc, hW, hH, hgrid⟩ := exec_keeps_sources h
  obtain ⟨hplen, hpay⟩ := exec_keeps_payload (.inr rfl) h
  have hdst : t.dst = s.dst := congrArg (1 - ·) hsrc
  have hcheck : hideCheck (maxCapacity t.W t.H) t.plen.toNat = hideCheck (maxCapacity s.W s.H) s.plen.toNat := by
    rw [hW, hH, hplen]
  cases hc : hideCheck (maxCapacity s.W s.H) s.plen.toNat with
  | some e =>
    rw [exec_hide_of_some (hcheck.trans hc)]
    obtain rfl := next_unique h (exec_hide_of_some hc)
    rfl
  | none =>
    rw [exec_hide_of_none (hcheck.trans hc), hdst, hsrc, hgrid, hW, hplen, hpay]
    obtain rfl := next_unique h (exec_hide_of_none hc)
    rw [writeRect_eq_self hs hW hH rfl]
    rfl

/-- Settles O42: the second command reads what the first read, and writes the rectangle that the first wrote. -/
theorem embeddingTwiceIsEmbeddingOnce : Obligations.EmbeddingTwiceIsEmbeddingOnce := by
  rintro i s t hi ⟨h0, h1, -⟩ h
  have hdst := bank_wf s.dst h0 h1
  rcases hi with rfl | rfl
  · exact embed_twice hdst h
  · exact hide_twice hdst h

end Sys2Proof.Machine
end

section
/-! The capacity of a grid (43_service.md R190), and where it changes. -/

namespace Sys2Proof.Machine

/-- Capacities from one byte on by the bits they need; at 0 the bound would be 48 bits, which an empty grid has not. -/
theorem le_maxCapacity_iff {W H c : Nat} (hc : 1 ≤ c) : c ≤ maxCapacity W H ↔ 48 + 8 * c ≤ totalBits W H := by
  rw [maxCapacity_eq]
  omega

theorem one_le_maxCapacity_iff {W H : Nat} : 1 ≤ maxCapacity W H ↔ 19 ≤ W * H := by
  rw [le_maxCapacity_iff le_rfl, totalBits_eq]
  omega

theorem maxCapacity_eq_zero_iff {W H : Nat} : maxCapacity W H = 0 ↔ W * H ≤ 18 := by
  have h := one_le_maxCapacity_iff (W := W) (H := H)
  omega

/-- A grid with a capacity holds a header. -/
theorem header_fits_of_capacity {W H : Nat} (h : 1 ≤ maxCapacity W H) : 48 ≤ totalBits W H :=
  (Nat.le_add_right 48 _).trans ((le_maxCapacity_iff le_rfl).mp h)

/-- R190's form with the maximum taken over the integers. -/
theorem maxCapacity_cast (W H : Nat) : (maxCapacity W H : Int) = max 0 (((W * H * 3 : Nat) - 48 : Int) / 8) := by
  rw [maxCapacity_eq, totalBits_eq]
  omega

/-- Settles O26: the truncated subtraction in each of its forms, and the threshold of one byte in pixels. -/
theorem capacityThresholds : Obligations.CapacityThresholds := by
  intro W H
  have hT := totalBits_eq W H
  have hbyte := le_maxCapacity_iff (W := W) (H := H) le_rfl
  refine ⟨hT, rfl, maxCapacity_eq W H, maxCapacity_cast W H, by omega, by omega, by omega, by omega,
    one_le_maxCapacity_iff, fun c => le_maxCapacity_iff, ?_, ?_, ?_, ?_⟩
  all_goals rw [maxCapacity_eq, totalBits_eq]

end Sys2Proof.Machine
end

section
/-! The command `CAP` (43_service.md R193). -/

namespace Sys2Proof.Machine

theorem hostAct_writeReg_of_ne_cmd (s : State) {word : Nat} (hw : word ≠ regWord .cmd) (v : Word) :
    hostAct (.writeReg word v) s = .next (s.wordWrite word v) :=
  if_neg hw

/-- `CAP` is read-only to the host (10_state.md R23). -/
@[simp] theorem wordWrite_cap (s : State) (word : Nat) (v : Word) : (s.wordWrite word v).cap = s.cap := by
  unfold State.wordWrite
  split
  case h_1 r _ => rw [regWrite_frame]
  case h_2 => rfl

/-- Settles O27: the capacity fits the register, and no register write reaches it. -/
theorem capWritesTheCapacity : Obligations.CapWritesTheCapacity := by
  refine fun s => ⟨⟨_, exec_cap s, ?_⟩, fun word v hw => ⟨_, hostAct_writeReg_of_ne_cmd s hw v, wordWrite_cap s word v⟩⟩
  have hfits : maxCapacity s.W s.H < 2 ^ 32 := (maxCapacity_lt s).trans (by norm_num)
  rw [BitVec.toNat_ofNat, Nat.mod_eq_of_lt hfits]
  rfl

end Sys2Proof.Machine
end

section
/-! The command `HIDE` (43_service.md R194, R195): its checks, and the frame's bits in the destination bank. -/

namespace Sys2Proof.Machine

variable {s : State}

/-! ## The checks -/

theorem exec_hide_of_no_capacity (hc : maxCapacity s.W s.H = 0) :
    exec .hide s = .next (finish (some .imageTooSmall) s) :=
  exec_hide_of_some (if_pos hc)

theorem exec_hide_of_too_long (hc : 1 ≤ maxCapacity s.W s.H) (hl : maxCapacity s.W s.H < s.plen.toNat) :
    exec .hide s = .next (finish (some .messageTooLarge) s) :=
  exec_hide_of_some ((if_neg (Nat.one_le_iff_ne_zero.mp hc)).trans (if_pos hl))

/-! ## The bits embedded -/

/-- The header's sequence is that of the register value with the two fields. -/
theorem serializeHeader_eq_bitsOfHdr (L : BitVec 32) :
    serializeHeader L.toNat = bitsOfHdr ((0x4454 : BitVec 16) ++ L) := by
  rw [← hdrOfBits_serializeHeader, bitsOfHdr_hdrOfBits (serializeHeader_length _)]

theorem frame_payload_get (s : State) (L : BitVec 32) (k : Nat) :
    (frame (s.payload L.toNat))[k]? =
      if k < 48 then some (BitVec.getLsbD ((0x4454 : BitVec 16) ++ L) (47 - k))
      else if k < 48 + 8 * L.toNat then some ((s.payRead ((k - 48) / 8)).getLsbD (7 - (k - 48) % 8))
      else none := by
  split
  case isTrue hk =>
    rw [frame_get_header _ (by omega), payload_length, serializeHeader_eq_bitsOfHdr, bitsOfHdr_get _ hk]
  case isFalse hk =>
    split
    case isTrue hp =>
      obtain ⟨m, rfl⟩ := Nat.exists_eq_add_of_le (not_lt.mp hk)
      rw [frame_get_payload, Nat.add_sub_cancel_left, bytesToBits_payload_get s (by omega)]
    case isFalse hp => exact List.getElem?_eq_none (by simpa using hp)

/-- Channel `c` of an embedded pixel takes the frame's bit of its stream index, if the frame has it. -/
theorem embed_frame_ch (s : State) (x y : Nat) (c : Fin 3) :
    (embed (s.grid s.src) s.W (frame (s.payload s.plen.toNat)) x y).ch c
      = if 3 * (y * s.W + x) + c < 48 then
          setLSB ((s.pixRead s.src x y).ch c)
            (BitVec.getLsbD ((0x4454 : BitVec 16) ++ s.plen) (47 - (3 * (y * s.W + x) + c)))
        else if 3 * (y * s.W + x) + c < 48 + 8 * s.plen.toNat then
          setLSB ((s.pixRead s.src x y).ch c)
            ((s.payRead ((3 * (y * s.W + x) + c - 48) / 8)).getLsbD (7 - (3 * (y * s.W + x) + c - 48) % 8))
        else (s.pixRead s.src x y).ch c := by
  rw [embed_ch, frame_payload_get]
  split
  case isTrue => rfl
  case isFalse => split <;> rfl

/-! ## The statements -/

/-- Settles O28: an equation for each check, and a rectangle that holds the embedded frame. -/
theorem hideChecksThenEmbedsTheFrame : Obligations.HideChecksThenEmbedsTheFrame := by
  refine fun s => ⟨maxCapacity_eq_zero_iff, exec_hide_of_no_capacity, exec_hide_of_too_long, fun hc hl =>
    ⟨_, exec_hide_of_none (hideCheck_eq_none.mpr ⟨hc, hl⟩), ?_, bank_src_writeRect_dst s _, fun x y c hx hy => ?_,
      fun x y hx hy => ?_, fun x y hx _ hout => ?_⟩⟩
  · rw [writeRect_frame, hdrOfBits_serializeHeader]
    rfl
  · exact (congrArg (Pixel.ch · c) (pixRead_writeRect_inside s s.dst _ hx hy)).trans (embed_frame_ch s x y c)
  · exact (congrArg Pixel.a (pixRead_writeRect_inside s s.dst _ hx hy)).trans (embed_a ..)
  · exact pixRead_writeRect_outside s _ hx fun ⟨_, hin⟩ => hout hin

/-- Settles O29: the command and the function make the same checks, and embed the same frame. -/
theorem hideCommandPerformsHide : Obligations.HideCommandPerformsHide := by
  intro s
  unfold hide
  rw [payload_length]
  cases hc : hideCheck (maxCapacity s.W s.H) s.plen.toNat with
  | some e => exact ⟨_, exec_hide_of_some hc, rfl, rfl⟩
  | none => exact ⟨_, exec_hide_of_none hc, rfl, fun x y => pixRead_writeRect_inside s s.dst _⟩

end Sys2Proof.Machine
end

section
/-! The command `EXTRACT` (43_service.md R197): the fields of the header found decide which test ends it. -/

namespace Sys2Proof.Machine

variable {s : State}

/-! ## The header found -/

/-- The header found, as a sequence, is the front of the stream. -/
theorem bitsOfHdr_streamHeader (hT : 48 ≤ totalBits s.W s.H) :
    bitsOfHdr s.streamHeader = (lsbStream (s.grid s.src) s.W s.H).take 48 :=
  bitsOfHdr_hdrOfBits (by simpa using hT)

theorem streamHeader_eq_of_bits {h : BitVec 48}
    (hh : ∀ k < 48, (lsbStream (s.grid s.src) s.W s.H)[k]? = some (h.getLsbD (47 - k))) : s.streamHeader = h := by
  rw [← hdrOfBits_bitsOfHdr h]
  refine congrArg hdrOfBits (List.ext_getElem? fun k => ?_)
  rw [Config.headerBits_eq]
  by_cases hk : k < 48
  · rw [List.getElem?_take_of_lt hk, hh k hk, bitsOfHdr_get h hk]
  · rw [List.getElem?_eq_none (by simp; omega), List.getElem?_eq_none (by simp; omega)]

/-! ## The tests in their order -/

theorem extractService_of_error {G : Grid} {W H : Nat} {e : ErrorKind} (h : extract G W H = .error e) :
    extractService G W H = .error e := by
  simp only [extractService, h]

theorem found_of_magic_ne (hT : 48 ≤ totalBits s.W s.H) (hm : s.streamHeader.extractLsb' 32 16 ≠ 0x4454) :
    s.found = .error .headerNotFound := by
  have hp := parseHeader_bitsOfHdr_of_ne hm
  rw [bitsOfHdr_streamHeader hT] at hp
  exact extractService_of_error (extract_of_header_error hT hp)

theorem parseHeader_stream (hT : 48 ≤ totalBits s.W s.H) (hm : s.streamHeader.extractLsb' 32 16 = 0x4454) :
    parseHeader ((lsbStream (s.grid s.src) s.W s.H).take 48)
      = .ok { magic := 0x4454, length := s.streamHeader.extractLsb' 0 32 } := by
  rw [← bitsOfHdr_streamHeader hT, parseHeader_bitsOfHdr_of_eq hm]

theorem found_of_length_gt (hT : 48 ≤ totalBits s.W s.H) (hm : s.streamHeader.extractLsb' 32 16 = 0x4454)
    (hl : maxCapacity s.W s.H < (s.streamHeader.extractLsb' 0 32).toNat) : s.found = .error .invalidLength :=
  extractService_of_error (extract_of_length_gt hT (parseHeader_stream hT hm) hl)

/-- With a Length within the capacity the payload found is the bytes of the stream's next bits. -/
theorem found_of_length_le (hT : 48 ≤ totalBits s.W s.H) (hm : s.streamHeader.extractLsb' 32 16 = 0x4454)
    (hl : (s.streamHeader.extractLsb' 0 32).toNat ≤ maxCapacity s.W s.H) :
    ∃ bytes : List Byte, s.found = .ok bytes ∧ bytes.length = (s.streamHeader.extractLsb' 0 32).toNat ∧
      bytesToBits bytes
        = ((lsbStream (s.grid s.src) s.W s.H).drop 48).take (8 * (s.streamHeader.extractLsb' 0 32).toNat) := by
  have hf := extractService_of_ok (extract_of_length_le hT (parseHeader_stream hT hm) hl)
  have hneeded := neededBits_le_totalBits hT.not_gt hl
  rw [neededBits_eq] at hneeded
  have hlen : (((lsbStream (s.grid s.src) s.W s.H).drop 48).take
      (8 * (s.streamHeader.extractLsb' 0 32).toNat)).length = 8 * (s.streamHeader.extractLsb' 0 32).toNat :=
    List.length_take_of_le (by rw [List.length_drop, lsbStream_length]; omega)
  refine ⟨_, hf, ?_, (bytesToBits_bitsToBytes_eq_self_iff _).mpr ?_⟩
  · rw [bitsToBytes_length, hlen, Nat.mul_div_cancel_left _ (by norm_num)]
  · rw [hlen, Nat.mul_mod_right]

/-- A payload is found exactly behind a header that passes both tests. -/
theorem found_ok_iff (hT : 48 ≤ totalBits s.W s.H) :
    (∃ bytes, s.found = .ok bytes) ↔ s.streamHeader.extractLsb' 32 16 = 0x4454 ∧
      (s.streamHeader.extractLsb' 0 32).toNat ≤ maxCapacity s.W s.H := by
  constructor
  · rintro ⟨bytes, hf⟩
    have hm : s.streamHeader.extractLsb' 32 16 = 0x4454 := by
      by_contra hm
      cases hf.symm.trans (found_of_magic_ne hT hm)
    refine ⟨hm, not_lt.mp fun hl => ?_⟩
    cases hf.symm.trans (found_of_length_gt hT hm hl)
  · rintro ⟨hm, hl⟩
    obtain ⟨bytes, hf, -⟩ := found_of_length_le hT hm hl
    exact ⟨bytes, hf⟩

/-! ## The statement -/

/-- Settles O30: the header found has the fields of `h`, and each test has its equation; the bytes delivered hold the
stream's bits behind the header. -/
theorem extractFindsValidatesAndDelivers : Obligations.ExtractFindsValidatesAndDelivers := by
  intro s h b hb hh
  have hstream : ∀ k < s.W * s.H * 3, (lsbStream (s.grid s.src) s.W s.H)[k]? = some (b k) := fun k hk => by
    rw [lsbStream_get _ hk, hb]
    rfl
  have hheader (hT : 48 ≤ s.W * s.H * 3) : s.streamHeader = h :=
    streamHeader_eq_of_bits fun k hk => by rw [hstream k (by omega), hh k hk]
  refine ⟨exec_extract_of_short, fun hT hm => ?_, fun hT hm hl => ?_, fun hT hm hl => ?_⟩
  all_goals obtain rfl := hheader hT
  · exact exec_extract_of_error hT.not_gt (found_of_magic_ne hT hm)
  · exact exec_extract_of_error hT.not_gt (found_of_length_gt hT hm hl)
  · obtain ⟨bytes, hf, hlen, hbits⟩ := found_of_length_le hT hm hl
    have hexec := exec_extract_of_ok hT.not_gt hf
    have hneeded := neededBits_le_totalBits (Nat.not_lt.mpr hT) hl
    rw [neededBits_eq, totalBits_eq] at hneeded
    refine ⟨_, hexec, ?_, fun j i hj hi => ?_, fun a ha => exec_payRead_beyond hexec ?_⟩
    · rw [hlen, BitVec.ofNat_toNat, BitVec.setWidth_eq]
      rfl
    · have hread := payRead_writeList_inside s s.pay bytes (hlen ▸ hj)
      have hbit := bytesToBits_get (List.getElem?_eq_getElem (hlen ▸ hj)) hi
      rw [hbits, List.getElem?_take_of_lt (by omega), List.getElem?_drop, ← Nat.add_assoc, hstream _ (by omega)] at hbit
      exact (congrArg (BitVec.getLsbD · (7 - i)) hread).trans (Option.some.inj hbit).symm
    · exact (toNat_ofNat_found_length hf).trans_le (hlen.trans_le ha)

end Sys2Proof.Machine
end

section
/-! The two directions together (43_service.md R199, R200): a frame in the destination bank, read back once the banks are
flipped. -/

namespace Sys2Proof.Machine

variable {i : Instr} {s t : State}

/-! ## The banks flipped -/

/-- The state after the host's `FLIP` (30_encoding.md R96): the destination bank is the source. -/
def State.flip (s : State) : State :=
  { s with src := s.dst }

theorem regWrite_ctrl_flip (s : State) : s.regWrite .ctrl (s.regRead .ctrl ^^^ 1) = s.flip := by
  have hsrc : ∀ b : Bank, (b.setWidth 32 ^^^ (1 : Word)).extractLsb' 0 1 = 1 - b := by decide
  exact congrArg (fun b => { s with src := b }) (hsrc s.src)

/-! ## A frame read back -/

/-- `EXTRACT` on the bank where a command left an embedded frame delivers the frame's payload. -/
theorem exec_extract_flip_of_frame {G : Grid} {P : List Byte} (hexec : exec i s = .next t) (hT : 48 ≤ totalBits s.W s.H)
    (hP : P.length ≤ maxCapacity s.W s.H)
    (hpix : ∀ x y : Nat, x < s.W → y < s.H → t.pixRead s.dst x y = embed G s.W (frame P) x y) :
    ∃ u : State, exec .extract (t.regWrite .ctrl (t.regRead .ctrl ^^^ 1)) = .next u ∧ u.status = statusEnded none ∧
      u.plen = BitVec.ofNat 32 P.length ∧ ∀ (j : Nat) (v : Byte), P[j]? = some v → u.payRead j = v := by
  obtain ⟨hsrc, hW, hH, -⟩ := exec_keeps_sources hexec
  obtain ⟨-, -, -, -, hservice⟩ := extractInvertsEmbedOnAFrame G s.W s.H P s.width.isLt s.height.isLt hT hP
  have hdst : t.dst = s.dst := congrArg (1 - ·) hsrc
  have hfound : t.flip.found = .ok P := calc t.flip.found
    _ = extractService (t.grid s.dst) s.W s.H := by rw [← hdst, ← hW, ← hH]; rfl
    _ = extractService (embed G s.W (frame P)) s.W s.H :=
      extractService_congr (lsbStream_congr fun x y c hx hy =>
        congrArg (fun px => (Pixel.ch px c).getLsbD 0) (hpix x y hx hy))
    _ = .ok P := hservice
  rw [← hW, ← hH] at hT
  rw [regWrite_ctrl_flip]
  refine ⟨_, exec_extract_of_ok hT.not_gt hfound, rfl, rfl, fun j v hv => ?_⟩
  obtain ⟨hj, rfl⟩ := List.getElem?_eq_some_iff.mp hv
  exact payRead_writeList_inside t t.pay P hj

/-- Settles O31: `HIDE` leaves the frame in the destination bank, and what is found there is the payload that it hid. -/
theorem hideFlipExtractGivesThePayloadBack : Obligations.HideFlipExtractGivesThePayloadBack := by
  intro s hc hl
  have hhide := exec_hide_of_none (hideCheck_eq_none.mpr ⟨hc, hl⟩)
  have hlen : (s.payload s.plen.toNat).length = s.plen.toNat := payload_length s _
  obtain ⟨u, hu, hstatus, hplen, hbytes⟩ := exec_extract_flip_of_frame hhide (header_fits_of_capacity hc)
    (hlen.trans_le hl) fun x y => pixRead_writeRect_inside s s.dst _
  refine ⟨_, u, hhide, hu, rfl, hstatus, ?_, fun j hj => hbytes j _ (payload_get s hj)⟩
  rw [hplen, hlen, BitVec.ofNat_toNat, BitVec.setWidth_eq]

/-! ## Grids that hold a header and no payload -/

theorem hdr_eq_append_iff {v : BitVec 48} {hi : BitVec 16} {lo : BitVec 32} :
    v = hi ++ lo ↔ v.extractLsb' 32 16 = hi ∧ v.extractLsb' 0 32 = lo := by
  constructor
  · rintro rfl
    exact ⟨hdr_high hi lo, hdr_low hi lo⟩
  · rintro ⟨rfl, rfl⟩
    rw [← hdrOfBits_bitsOfHdr (v.extractLsb' 32 16 ++ v.extractLsb' 0 32), bitsOfHdr_eq_fields, hdr_high, hdr_low,
      ← bitsOfHdr_eq_fields, hdrOfBits_bitsOfHdr]

theorem take_stream_eq_serializeHeader_iff (hT : 48 ≤ totalBits s.W s.H) {L : BitVec 32} :
    (lsbStream (s.grid s.src) s.W s.H).take 48 = serializeHeader L.toNat ↔
      s.streamHeader.extractLsb' 32 16 = 0x4454 ∧ s.streamHeader.extractLsb' 0 32 = L := by
  rw [← hdr_eq_append_iff]
  constructor
  · intro h
    exact (congrArg hdrOfBits h).trans (hdrOfBits_serializeHeader L)
  · intro h
    rw [← bitsOfHdr_streamHeader hT, h, serializeHeader_eq_bitsOfHdr]

/-- With capacity 0 a Length other than 0 is invalid, so `EXTRACT` succeeds on an empty payload's header alone. -/
theorem exec_extract_of_no_capacity (hT : 48 ≤ totalBits s.W s.H) (hc : maxCapacity s.W s.H = 0) :
    ∃ t : State, exec .extract s = .next t ∧
      (t.status.ecode = 0 ↔ (lsbStream (s.grid s.src) s.W s.H).take 48 = serializeHeader 0) ∧
      (t.status.ecode = 0 → t.plen = 0) := by
  have hheader : (lsbStream (s.grid s.src) s.W s.H).take 48 = serializeHeader 0 ↔ ∃ bytes, s.found = .ok bytes := by
    rw [found_ok_iff hT, hc, Nat.le_zero]
    exact (take_stream_eq_serializeHeader_iff hT (L := 0)).trans (and_congr_right' BitVec.toNat_inj.symm)
  rw [hheader]
  cases hf : s.found with
  | error e =>
    have hcode := errorCode_ne_zero e
    exact ⟨_, exec_extract_of_error hT.not_gt hf, iff_of_false hcode (by simp), fun h => absurd h hcode⟩
  | ok bytes =>
    have hlen : bytes.length = 0 := Nat.le_zero.mp (hc ▸ found_length_le hf)
    exact ⟨_, exec_extract_of_ok hT.not_gt hf, iff_of_true rfl ⟨bytes, rfl⟩, fun _ => congrArg (BitVec.ofNat 32) hlen⟩

/-! ## The bits of an empty payload's header, embedded as a payload -/

/-- Where all its bits fit, the whole payload is embedded. -/
theorem embedBits_of_fits (h : 8 * s.plen.toNat ≤ totalBits s.W s.H) :
    s.embedBits = bytesToBits (s.payload s.plen.toNat) := by
  have hread : bytesRead (8 * s.plen.toNat) (totalBits s.W s.H) = s.plen.toNat := by
    unfold bytesRead
    omega
  rw [State.embedBits, hread]

/-- Settles O32: a capacity of 0 for `HIDE` and `EXTRACT`; the six bytes are the frame of an empty payload. -/
theorem smallGridsCarryOnlyAnEmptyPayload : Obligations.SmallGridsCarryOnlyAnEmptyPayload := by
  intro s hmin hmax
  have hT : 48 ≤ totalBits s.W s.H := Nat.mul_le_mul_right 3 hmin
  have hc : maxCapacity s.W s.H = 0 := maxCapacity_eq_zero_iff.mpr hmax
  refine ⟨⟨_, exec_hide_of_no_capacity hc, rfl⟩, exec_extract_of_no_capacity hT hc, fun hP => ?_⟩
  have hplen : s.plen.toNat = 6 := (payload_length s _).symm.trans (congrArg List.length hP)
  have hbits : s.embedBits = frame [] := by
    rw [embedBits_of_fits (by omega), hP]
    decide
  have hembed := exec_embed s
  rw [hbits] at hembed
  obtain ⟨u, hu, hstatus, hzero, -⟩ := exec_extract_flip_of_frame hembed hT (Nat.zero_le _) fun x y =>
    pixRead_writeRect_inside s s.dst _
  exact ⟨_, u, hembed, hu, congrArg Status.ecode hstatus, hzero⟩

end Sys2Proof.Machine
end

section
/-! The machine goes on (60_exceptions.md R220, 70_reset_and_hazards.md R270): no command, no move of a run that a command
can have, and no action of the host ends in a fault or a refusal. -/

namespace Sys2Proof.Machine

/-! ## Commands -/

theorem exec_goes_on (i : Instr) (s : State) : ∃ t, exec i s = .next t := by
  cases i with
  | cap => exact ⟨_, exec_cap s⟩
  | hdrser => exact ⟨_, exec_hdrser s⟩
  | hdrparse =>
    cases hp : parseHeader (bitsOfHdr s.hdr) with
    | ok h => exact ⟨_, exec_hdrparse_of_ok hp⟩
    | error e => exact ⟨_, exec_hdrparse_of_error hp⟩
  | embed => exact ⟨_, exec_embed s⟩
  | hide => exact ⟨_, execHide_eq s⟩
  | extract => exact ⟨_, execExtract_eq s⟩

/-- Whether the storage is populated does not depend on the state that a command would leave there. -/
theorem withStorage_of_next {p n : Nat} {s t : State} (h : withStorage p n s = .next t) (u : State) :
    withStorage p n u = .next u := by
  unfold withStorage at h ⊢
  split at h
  case isTrue hfits => exact if_pos hfits
  case isFalse => cases h

/-- The start of a command makes the storage check that the whole command makes. -/
theorem launch_goes_on (i : Instr) (s : State) : ∃ t, launch i s = .next t := by
  cases i with
  | cap => exact exec_goes_on .cap s
  | hdrser => exact exec_goes_on .hdrser s
  | hdrparse => exact exec_goes_on .hdrparse s
  | embed => exact ⟨_, withStorage_of_next (execEmbed_eq s) _⟩
  | hide => exact ⟨_, withStorage_of_next (execHide_eq s) _⟩
  | extract => exact ⟨_, withStorage_of_next (execExtract_eq s) _⟩

theorem command_of_error {c : Word} {e : DecodeReject} (s : State) (h : decode c = .error e) :
    command c s = .next (illegalCommand c s) := by
  simp only [command, h]

theorem command_of_ok {c : Word} {i : Instr} (s : State) (h : decode c = .ok i) :
    command c s = if s.stepwise then launch i s else exec i s := by
  simp only [command, h]

theorem command_goes_on (c : Word) (s : State) : ∃ t, command c s = .next t := by
  cases hc : decode c with
  | error e => exact ⟨_, command_of_error s hc⟩
  | ok i =>
    rw [command_of_ok s hc]
    split
    · exact launch_goes_on i s
    · exact exec_goes_on i s

/-! ## The host -/

theorem hostAct_goes_on (a : HostAction) (s : State) : ∃ t, hostAct a s = .next t := by
  cases a with
  | writeReg word v =>
    by_cases hw : word = regWord .cmd
    · rw [hw, hostAct_writeCmd]
      exact command_goes_on v s
    · exact ⟨_, hostAct_writeReg_of_ne_cmd s hw v⟩
  | readReg word => exact ⟨_, rfl⟩
  | writePix b x y w => exact ⟨_, rfl⟩
  | readPix b x y => exact ⟨_, rfl⟩
  | writePay addr v => exact ⟨_, rfl⟩
  | readPay addr => exact ⟨_, rfl⟩
  | reset => exact ⟨_, rfl⟩
  | wait => exact ⟨_, rfl⟩

theorem idleStep_goes_on (s : State) : ∃ t, idleStep s = .next t := by
  unfold idleStep
  split
  · exact ⟨_, rfl⟩
  · exact hostAct_goes_on _ _

/-! ## The running command -/

section
variable {s : State} {r : Run}

theorem engineTick_embed (hrun : s.run = some r) (hop : r.opcl = encode .embed) :
    engineTick s = .next (embedTick 0 s r) := by
  simp only [engineTick, hrun, hop, decode_encode_eq]

theorem engineTick_hide (hrun : s.run = some r) (hop : r.opcl = encode .hide) :
    engineTick s = .next (embedTick 48 s r) := by
  simp only [engineTick, hrun, hop, decode_encode_eq, Config.headerBits_eq]

theorem engineTick_extract (hrun : s.run = some r) (hop : r.opcl = encode .extract) :
    engineTick s = .next (extractTick s r) := by
  simp only [engineTick, hrun, hop, decode_encode_eq]

/-- The engine is never stuck on a run that a command can have. -/
theorem engineTick_goes_on (hrun : s.run = some r) (hr : r.ok) : ∃ t, engineTick s = .next t := by
  obtain ⟨hembed | hhide | hextract, -⟩ := hr
  · exact ⟨_, engineTick_embed hrun hembed⟩
  · exact ⟨_, engineTick_hide hrun hhide⟩
  · exact ⟨_, engineTick_extract hrun hextract⟩

theorem busyStep_goes_on (hrun : s.run = some r) (hr : r.ok) : ∃ t, busyStep s = .next t := by
  have hheld : ∃ t, engineTick s = .next t := engineTick_goes_on hrun hr
  unfold busyStep
  split
  case h_2 => exact ⟨_, rfl⟩
  case h_3 rest _ => exact engineTick_goes_on (s := { s with pending := rest }) hrun hr
  case h_4 =>
    split
    · exact ⟨_, rfl⟩
    · exact hheld
  all_goals exact hheld

end

/-- Settles O52: while busy there is a run, and the engine moves on it; while idle the host's action goes on. -/
theorem stepNeverStops : Obligations.StepNeverStops := by
  rintro s ⟨-, -, hbusy, hruns, -⟩
  unfold State.Safe step
  split
  case isTrue hb =>
    obtain ⟨r, hrun⟩ := Option.isSome_iff_exists.mp (hbusy.mp hb)
    exact busyStep_goes_on hrun (hruns r hrun)
  case isFalse => exact idleStep_goes_on s

end Sys2Proof.Machine
end

section
/-! An undefined command word (60_exceptions.md R232). -/

namespace Sys2Proof.Machine

theorem commandWord_wf_iff (f : CommandWord) :
    f.wf = true ↔ f.zero = 0 ∧ 1 ≤ f.opc.toNat ∧ f.opc.toNat ≤ 6 := by
  simp [CommandWord.wf, CommandWord.opcOk]

/-- A word with ill-formed fields is no encoding. -/
theorem exists_decode_error_of_not_wf {c : Word} (h : (CommandWord.ofWord c).wf ≠ true) : ∃ e, decode c = .error e := by
  refine exists_decode_error_iff.mpr ?_
  rintro i rfl
  exact h (ofWord_encode_wf i)

/-- Settles O5: the word's fields are ill formed, so it is refused, and its outcome is an end with code 7. -/
theorem undefinedCommandWordEndsWithIllegalCommand : Obligations.UndefinedCommandWordEndsWithIllegalCommand := by
  intro s c h
  have hwf : (CommandWord.ofWord c).wf ≠ true := by
    rw [ne_eq, commandWord_wf_iff]
    rintro ⟨hzero, hmin, hmax⟩
    rcases h with h | h | h
    · exact h hzero
    · exact absurd h (Nat.one_le_iff_ne_zero.mp hmin)
    · exact absurd (h.trans hmax) (by norm_num)
  obtain ⟨e, he⟩ := exists_decode_error_of_not_wf hwf
  exact command_of_error s he

end Sys2Proof.Machine
end

section
/-! How commands end (60_exceptions.md R229), and what a failing command leaves (R226). -/

namespace Sys2Proof.Machine

variable {i : Instr} {s t : State}

/-! ## The codes -/

theorem hdrparse_ecode (s : State) : ∃ t, exec .hdrparse s = .next t ∧
    t.status.ecode = if s.hdr.extractLsb' 32 16 = 0x4454 then 0 else 1 := by
  split
  case isTrue hm => exact ⟨_, exec_hdrparse_of_ok (parseHeader_bitsOfHdr_of_eq hm), rfl⟩
  case isFalse hm => exact ⟨_, exec_hdrparse_of_error (parseHeader_bitsOfHdr_of_ne hm), rfl⟩

theorem hide_ecode (s : State) : ∃ t, exec .hide s = .next t ∧ t.status.ecode
    = if maxCapacity s.W s.H = 0 then 5 else if maxCapacity s.W s.H < s.plen.toNat then 4 else 0 := by
  split_ifs with hc hl
  · exact ⟨_, exec_hide_of_no_capacity hc, rfl⟩
  · exact ⟨_, exec_hide_of_too_long (Nat.one_le_iff_ne_zero.mpr hc) hl, rfl⟩
  · exact ⟨_, exec_hide_of_none (hideCheck_eq_none.mpr ⟨Nat.one_le_iff_ne_zero.mpr hc, not_lt.mp hl⟩), rfl⟩

theorem extract_ecode (s : State) : ∃ t, exec .extract s = .next t ∧ t.status.ecode
    = if totalBits s.W s.H < 48 then 3
      else if bitsToUint ((lsbStream (s.grid s.src) s.W s.H).take 16) ≠ 0x4454 then 1
      else if maxCapacity s.W s.H < bitsToUint (((lsbStream (s.grid s.src) s.W s.H).drop 16).take 32) then 2 else 0 := by
  obtain ⟨-, htests⟩ := extractFunctionFollowsItsTests (s.grid s.src) s.W s.H
  split_ifs with hT hm hl
  · exact ⟨_, exec_extract_of_short hT, rfl⟩
  all_goals obtain ⟨hmagic, hlength, hok⟩ := htests (not_lt.mp hT)
  · exact ⟨_, exec_extract_of_error hT (extractService_of_error (hmagic hm)), rfl⟩
  · exact ⟨_, exec_extract_of_error hT (extractService_of_error (hlength (not_not.mp hm) hl)), rfl⟩
  · exact ⟨_, exec_extract_of_ok hT (extractService_of_ok (hok (not_not.mp hm) (not_lt.mp hl))), rfl⟩

/-- Settles O35: three commands that only succeed, and the tests of the other three in their order. -/
theorem commandsEndAsTabled : Obligations.CommandsEndAsTabled :=
  fun s => ⟨⟨_, exec_cap s, rfl⟩, ⟨_, exec_hdrser s, rfl⟩, ⟨_, exec_embed s, rfl⟩, hdrparse_ecode s, hide_ecode s,
    extract_ecode s⟩

/-! ## Failures -/

/-- A command that fails leaves its start state ended with its error; `EXTRACT` has written `HDR` first, where the header
it collected fails a test. -/
theorem exec_failure_cases (h : exec i s = .next t) (hfail : t.status.ecode ≠ 0) :
    (∃ e, t = finish (some e) s ∧ (i = .extract → e = .truncatedData)) ∨
      i = .extract ∧ ∃ e, t = finish (some e) { s with hdr := s.streamHeader } ∧
        (e = .headerNotFound ∨ e = .invalidLength) := by
  cases i with
  | cap =>
    obtain rfl := next_unique h (exec_cap s)
    exact absurd rfl hfail
  | hdrser =>
    obtain rfl := next_unique h (exec_hdrser s)
    exact absurd rfl hfail
  | hdrparse =>
    cases hp : parseHeader (bitsOfHdr s.hdr) with
    | ok hdr =>
      obtain rfl := next_unique h (exec_hdrparse_of_ok hp)
      exact absurd rfl hfail
    | error e => exact .inl ⟨e, next_unique h (exec_hdrparse_of_error hp), nofun⟩
  | embed =>
    obtain rfl := next_unique h (exec_embed s)
    exact absurd rfl hfail
  | hide =>
    cases hc : hideCheck (maxCapacity s.W s.H) s.plen.toNat with
    | some e => exact .inl ⟨e, next_unique h (exec_hide_of_some hc), nofun⟩
    | none =>
      obtain rfl := next_unique h (exec_hide_of_none hc)
      exact absurd rfl hfail
  | extract =>
    by_cases hT : totalBits s.W s.H < Config.headerBits
    · exact .inl ⟨_, next_unique h (exec_extract_of_short hT), fun _ => rfl⟩
    · cases hf : s.found with
      | error e =>
        exact .inr ⟨rfl, e, next_unique h (exec_extract_of_error hT hf), found_error_of_header hT hf⟩
      | ok bytes =>
        obtain rfl := next_unique h (exec_extract_of_ok hT hf)
        exact absurd rfl hfail

/-- Settles O36: the two ways to fail, told apart by the codes 1 and 2 of `EXTRACT`. -/
theorem failingCommandsChangeOnlyStatus : Obligations.FailingCommandsChangeOnlyStatus := by
  refine ⟨fun i s t h hfail => ?_, fun c s => rfl⟩
  rcases exec_failure_cases h hfail with ⟨e, rfl, he⟩ | ⟨rfl, e, rfl, he⟩
  · rw [if_neg]
    · rfl
    · rintro ⟨hi, hcode⟩
      rw [finish_status, he hi] at hcode
      exact absurd hcode (by decide)
  · rw [if_pos]
    · rfl
    · rcases he with rfl | rfl
      · exact ⟨rfl, .inl rfl⟩
      · exact ⟨rfl, .inr rfl⟩

end Sys2Proof.Machine
end

section
/-! The `STATUS` words (60_exceptions.md R221, 30_encoding.md R97). -/

namespace Sys2Proof.Machine

theorem expectedStatus_eq_word (e : Expected) : expectedStatus e = (statusEnded e).word := by
  cases e with
  | none => rfl
  | some k => cases k <;> rfl

/-- Settles O34: the words of the ends are those that `EXPECT` lines give. -/
theorem statusWordsOfTheOutcomes : Obligations.StatusWordsOfTheOutcomes :=
  ⟨(expectedStatus_eq_word none).symm, (expectedStatus_eq_word (some .headerNotFound)).symm,
    (expectedStatus_eq_word (some .invalidLength)).symm, (expectedStatus_eq_word (some .truncatedData)).symm,
    (expectedStatus_eq_word (some .messageTooLarge)).symm, (expectedStatus_eq_word (some .imageTooSmall)).symm,
    (expectedStatus_eq_word (some .illegalCommand)).symm, rfl, expectedStatus_eq_word⟩

end Sys2Proof.Machine
end

section
/-! No error is sticky (60_exceptions.md R233): a command overwrites `STATUS` and the hidden state, and does not read `CAP`. -/

namespace Sys2Proof.Machine

/-- Writing a rectangle commutes with a change of what earlier commands left in `STATUS`, the hidden state and `CAP`. -/
theorem writeRect_with_outcome (s : State) (b : Bank) (G : Grid) (st : Status) (r : Option Run) (c : Word) :
    State.writeRect { s with status := st, run := r, cap := c } b G
      = { s.writeRect b G with status := st, run := r, cap := c } := by
  rcases bank_cases b with rfl | rfl <;> rfl

/-- Settles O40: each way a command ends has an equation that shows neither `STATUS` nor the hidden state nor `CAP` as it
was, but for `CAP` passed on. -/
theorem commandsIgnoreEarlierOutcomes : Obligations.CommandsIgnoreEarlierOutcomes := by
  intro i s t st r c h
  cases i with
  | cap =>
    obtain rfl := next_unique h (exec_cap s)
    exact exec_cap _
  | hdrser =>
    obtain rfl := next_unique h (exec_hdrser s)
    exact exec_hdrser _
  | hdrparse =>
    cases hp : parseHeader (bitsOfHdr s.hdr) with
    | ok hdr =>
      obtain rfl := next_unique h (exec_hdrparse_of_ok hp)
      exact exec_hdrparse_of_ok hp
    | error e =>
      obtain rfl := next_unique h (exec_hdrparse_of_error hp)
      exact exec_hdrparse_of_error hp
  | embed =>
    obtain rfl := next_unique h (exec_embed s)
    rw [exec_embed, writeRect_with_outcome]
    rfl
  | hide =>
    cases hc : hideCheck (maxCapacity s.W s.H) s.plen.toNat with
    | some e =>
      obtain rfl := next_unique h (exec_hide_of_some hc)
      exact exec_hide_of_some hc
    | none =>
      obtain rfl := next_unique h (exec_hide_of_none hc)
      rw [exec_hide_of_none (s := { s with status := st, run := r, cap := c }) hc, writeRect_with_outcome]
      rfl
  | extract =>
    by_cases hT : totalBits s.W s.H < Config.headerBits
    · obtain rfl := next_unique h (exec_extract_of_short hT)
      exact exec_extract_of_short hT
    · cases hf : s.found with
      | error e =>
        obtain rfl := next_unique h (exec_extract_of_error hT hf)
        exact exec_extract_of_error hT hf
      | ok bytes =>
        obtain rfl := next_unique h (exec_extract_of_ok hT hf)
        exact exec_extract_of_ok hT hf

end Sys2Proof.Machine
end

section
/-! Every command ends (70_reset_and_hazards.md R270), and `STATUS` at an end is consistent (10_state.md R27). -/

namespace Sys2Proof.Machine

@[simp] theorem statusEnded_busy (e : Option ErrorKind) : (statusEnded e).busy = false := rfl

@[simp] theorem statusEnded_done (e : Option ErrorKind) : (statusEnded e).done = true := rfl

/-- `ERR` is set exactly by the codes of errors. -/
theorem statusEnded_err_iff (e : Option ErrorKind) : (statusEnded e).err = true ↔ (statusEnded e).ecode ≠ 0 :=
  bne_iff_ne

/-- Whatever a command does, the last thing it does is to end, with success or with an error. -/
theorem exec_finishes (i : Instr) (s : State) : ∃ e u, exec i s = .next (finish e u) := by
  cases i with
  | cap => exact ⟨_, _, exec_cap s⟩
  | hdrser => exact ⟨_, _, exec_hdrser s⟩
  | hdrparse =>
    cases hp : parseHeader (bitsOfHdr s.hdr) with
    | ok h => exact ⟨_, _, exec_hdrparse_of_ok hp⟩
    | error e => exact ⟨_, _, exec_hdrparse_of_error hp⟩
  | embed => exact ⟨_, _, exec_embed s⟩
  | hide =>
    cases hc : hideCheck (maxCapacity s.W s.H) s.plen.toNat with
    | some e => exact ⟨_, _, exec_hide_of_some hc⟩
    | none => exact ⟨_, _, exec_hide_of_none hc⟩
  | extract =>
    by_cases hT : totalBits s.W s.H < Config.headerBits
    · exact ⟨_, _, exec_extract_of_short hT⟩
    · cases hf : s.found with
      | error e => exact ⟨_, _, exec_extract_of_error hT hf⟩
      | ok bytes => exact ⟨_, _, exec_extract_of_ok hT hf⟩

/-- Settles O33: `finish` writes the whole of `STATUS` and drops the hidden state, whatever state it is given. -/
theorem everyCommandEnds : Obligations.EveryCommandEnds := by
  intro i s
  obtain ⟨e, u, h⟩ := exec_finishes i s
  exact ⟨finish e u, h, statusEnded_busy e, statusEnded_done e, statusEnded_err_iff e, finish_run e u⟩

end Sys2Proof.Machine
end

section
/-! What drives the engine: the host's next action while idle, and the engine's own move while busy (70_reset_and_hazards.md
R266). -/

namespace Sys2Proof.Machine

variable {s : State} {a : HostAction} {rest : List HostAction}

theorem step_of_idle_cons (hidle : s.status.busy = false) (hp : s.pending = a :: rest) :
    step s = hostAct a { s with pending := rest } := by
  simp only [step, hidle, Bool.false_eq_true, if_false, idleStep, hp]

theorem step_of_idle_nil (hidle : s.status.busy = false) (hp : s.pending = []) : step s = .next s := by
  simp only [step, hidle, Bool.false_eq_true, if_false, idleStep, hp]

theorem step_of_busy_nil (hbusy : s.status.busy = true) (hp : s.pending = []) : step s = engineTick s := by
  simp only [step, hbusy, if_true, busyStep, hp]

theorem step_of_idle_writeCmd {c : Word} (hidle : s.status.busy = false)
    (hp : s.pending = .writeReg (regWord .cmd) c :: rest) : step s = command c { s with pending := rest } :=
  (step_of_idle_cons hidle hp).trans (hostAct_writeCmd _ c)

theorem fetchWord_toNat (c : Word) : fetchWord 32 c.toNat = c := by
  rw [fetchWord, Nat.mod_eq_of_lt c.isLt, BitVec.ofNat_toNat, BitVec.setWidth_eq]

/-- Settles O4: the step is `command` of the word, and the word that `withFetchWord` places is the one it is given. -/
theorem stepRunsTheDecodedCommand : Obligations.StepRunsTheDecodedCommand := by
  refine ⟨fun s c rest hidle hp => ⟨fun i hi hpace => ?_, fun i hi hpace => ?_, fun e he => ?_⟩, fun s c i hi => ?_⟩
  · rw [step_of_idle_writeCmd hidle hp, command_of_ok _ hi, if_neg (by simp [hpace])]
  · rw [step_of_idle_writeCmd hidle hp, command_of_ok _ hi, if_pos hpace]
  · rw [step_of_idle_writeCmd hidle hp, command_of_error _ he]
  · have hp : (s.withFetchWord 32 c.toNat).pending = .writeReg (regWord .cmd) c :: s.pending := by
      rw [State.withFetchWord, fetchWord_toNat]
    exact (step_of_idle_writeCmd rfl hp).trans (command_of_ok _ hi)

/-- Settles O56: an idle step is `hostAct` of the action at the head, whose cases are its definition. -/
theorem idleStepTakesTheHostsNextAction : Obligations.IdleStepTakesTheHostsNextAction :=
  ⟨fun _ => step_of_idle_nil, fun _ _ _ => step_of_idle_cons, hostAct_writeCmd, hostAct_readPix, hostAct_readPay,
    fun _ => rfl⟩

end Sys2Proof.Machine
end

section
/-! The register map as the host sees it (10_state.md R28). -/

namespace Sys2Proof.Machine

/-! ## The fields in their words -/

theorem toNat_setWidth_word {w : Nat} (hw : w ≤ 32) (v : BitVec w) : (v.setWidth 32).toNat = v.toNat := by
  rw [BitVec.toNat_setWidth, Nat.mod_eq_of_lt (v.isLt.trans_le (Nat.pow_le_pow_right (by norm_num) hw))]

theorem regRead_hdrlo_toNat (s : State) : (s.regRead .hdrlo).toNat = s.hdr.toNat % 2 ^ 32 := by
  simp [State.regRead]

theorem regRead_hdrhi_toNat (s : State) : (s.regRead .hdrhi).toNat = s.hdr.toNat / 2 ^ 32 := by
  have h := s.hdr.isLt
  simp only [State.regRead]
  rw [toNat_setWidth_word (by norm_num), BitVec.extractLsb'_toNat, Nat.shiftRight_eq_div_pow, Nat.mod_eq_of_lt (by omega)]

/-- The low `n` bits of a word, extended with zeros, are the word under a mask. -/
theorem setWidth_extract_low (v : Word) {n : Nat} (hn : n ≤ 32) :
    (v.extractLsb' 0 n).setWidth 32 = v &&& BitVec.ofNat 32 (2 ^ n - 1) := by
  have hmask : 2 ^ n - 1 < 2 ^ 32 :=
    (Nat.sub_lt (Nat.two_pow_pos n) one_pos).trans_le (Nat.pow_le_pow_right two_pos hn)
  apply BitVec.eq_of_toNat_eq
  rw [toNat_setWidth_word hn, BitVec.extractLsb'_toNat, Nat.shiftRight_zero, BitVec.toNat_and, BitVec.toNat_ofNat,
    Nat.mod_eq_of_lt hmask, Nat.and_two_pow_sub_one_eq_mod]

/-! ## What a write leaves -/

/-- A write leaves its own register's writable bits as written. -/
theorem regRead_regWrite_same (s : State) (v : Word) :
    (s.regWrite .ctrl v).regRead .ctrl = v &&& 0x00000001 ∧ (s.regWrite .width v).regRead .width = v &&& 0x0000FFFF ∧
    (s.regWrite .height v).regRead .height = v &&& 0x0000FFFF ∧ (s.regWrite .hdrhi v).regRead .hdrhi = v &&& 0x0000FFFF ∧
    (s.regWrite .plen v).regRead .plen = v ∧ (s.regWrite .hdrlo v).regRead .hdrlo = v :=
  ⟨setWidth_extract_low v (n := 1) (by norm_num), setWidth_extract_low v (n := 16) (by norm_num),
    setWidth_extract_low v (n := 16) (by norm_num),
    (congrArg (BitVec.setWidth 32) (hdr_high ..)).trans (setWidth_extract_low v (n := 16) (by norm_num)), rfl, hdr_low ..⟩

/-- A write changes no other register's word: the two halves of `HDR` are the one pair that shares a field. -/
theorem regRead_regWrite_other (s : State) (v : Word) {r r' : Reg} (h : r' ≠ r) :
    (s.regWrite r v).regRead r' = s.regRead r' := by
  cases r with
  | cmd => rfl
  | status => rfl
  | cap => rfl
  | hdrlo =>
    cases r' with
    | hdrlo => exact absurd rfl h
    | hdrhi => exact congrArg (BitVec.setWidth 32) (hdr_high ..)
    | _ => rfl
  | hdrhi =>
    cases r' with
    | hdrhi => exact absurd rfl h
    | hdrlo => exact hdr_low ..
    | _ => rfl
  | ctrl =>
    cases r' with
    | ctrl => exact absurd rfl h
    | _ => rfl
  | width =>
    cases r' with
    | width => exact absurd rfl h
    | _ => rfl
  | height =>
    cases r' with
    | height => exact absurd rfl h
    | _ => rfl
  | plen =>
    cases r' with
    | plen => exact absurd rfl h
    | _ => rfl

theorem hostAct_readReg_unmapped (s : State) {word : Nat} (h : ∀ r : Reg, word ≠ regWord r) :
    hostAct (.readReg word) s = .next (s.reply (.word 0)) := by
  rw [hostAct, wordRead_unmapped s h]

theorem hostAct_writeReg_unmapped (s : State) {word : Nat} (h : ∀ r : Reg, word ≠ regWord r) (v : Word) :
    hostAct (.writeReg word v) s = .next s := by
  rw [hostAct_writeReg_of_ne_cmd s (h .cmd), wordWrite_unmapped s h]

/-- Settles O43: a mapped offset's read is `regRead` and its write `regWrite`, each with its lemma for the register's own
word and for the others. -/
theorem registerMapAccess : Obligations.RegisterMapAccess := by
  refine ⟨⟨rfl, rfl, rfl, rfl, rfl, rfl, rfl, rfl, rfl, fun _ => rfl⟩, fun s v => ⟨?_, fun r => hostAct_readReg s r,
    fun r hr => ?_, fun word h => ⟨hostAct_readReg_unmapped s h, hostAct_writeReg_unmapped s h v⟩⟩⟩
  · exact ⟨rfl, rfl, toNat_setWidth_word (by norm_num) _, toNat_setWidth_word (by norm_num) _,
      toNat_setWidth_word (by norm_num) _, rfl, rfl, regRead_hdrlo_toNat s, regRead_hdrhi_toNat s⟩
  · obtain ⟨hctrl, hwidth, hheight, hhdrhi, hplen, hhdrlo⟩ := regRead_regWrite_same s v
    refine ⟨_, hostAct_writeReg s hr v, regWrite_frame s r v, ?_, ?_, ?_, ?_, fun r' => regRead_regWrite_other s v⟩
    · rintro rfl
      exact hctrl
    · rintro (rfl | rfl | rfl)
      exacts [hwidth, hheight, hhdrhi]
    · rintro (rfl | rfl)
      exacts [hplen, hhdrlo]
    · rintro (rfl | rfl)
      exacts [rfl, rfl]

end Sys2Proof.Machine
end

section
/-! Reset (10_state.md R35, 70_reset_and_hazards.md R260, R261): while idle, and while a command runs. -/

namespace Sys2Proof.Machine

variable {s : State} {r : Run} {rest : List HostAction}

/-! ## The registers -/

theorem regRead_reset (r : Reg) : State.reset.regRead r = 0 := by
  cases r <;> rfl

theorem regRead_resetRegisters (s : State) (r : Reg) : s.resetRegisters.regRead r = 0 :=
  calc s.resetRegisters.regRead r
    _ = State.reset.regRead r := by cases r <;> rfl
    _ = 0 := regRead_reset r

/-- Settles O46: the registers word by word; `HDRPARSE` finds a Magic of 0. -/
theorem resetValues : Obligations.ResetValues :=
  ⟨regRead_reset, rfl, rfl, rfl, rfl, rfl, _, exec_hdrparse_of_error (parseHeader_bitsOfHdr_of_ne (by decide)), by decide⟩

/-- Settles O47: the step is `resetRegisters`, which keeps the memories and the draw of what is unwritten. -/
theorem resetWhileIdleKeepsTheMemories : Obligations.ResetWhileIdleKeepsTheMemories :=
  fun _ _ hidle hp =>
    ⟨_, step_of_idle_cons hidle hp, regRead_resetRegisters _, rfl, rfl, rfl, fun _ _ _ => rfl, fun _ => rfl⟩

/-! ## A running command abandoned -/

theorem step_of_busy_reset (hbusy : s.status.busy = true) (hp : s.pending = .reset :: rest) :
    step s = .next (State.abandon { s with pending := rest }) := by
  simp only [step, hbusy, if_true, busyStep, hp]

theorem pixRead_abandon (s : State) (b : Bank) (x y : Nat) : s.abandon.pixRead b x y = s.scramble.pixRead b x y := rfl

theorem payRead_abandon (s : State) (a : Nat) : s.abandon.payRead a = s.scramble.payRead a := rfl

/-- What a reset abandons can have written the destination's rectangle, the payload found, or nothing. -/
theorem scramble_cases {i : Instr} (hrun : s.run = some r) (hop : r.opcl = encode i) :
    ((i = .embed ∨ i = .hide) ∧ s.scramble = s.scrambleRect) ∨ (i = .extract ∧ s.scramble = s.scramblePay) ∨
      s.scramble = s := by
  have hscramble : s.scramble = match i with
      | .embed | .hide => s.scrambleRect
      | .extract => s.scramblePay
      | .cap | .hdrser | .hdrparse => s := by
    simp only [State.scramble, hrun, hop, decode_encode_eq]
    cases i <;> rfl
  cases i with
  | embed => exact .inl ⟨.inl rfl, hscramble⟩
  | hide => exact .inl ⟨.inr rfl, hscramble⟩
  | extract => exact .inr (.inl ⟨rfl, hscramble⟩)
  | cap => exact .inr (.inr hscramble)
  | hdrser => exact .inr (.inr hscramble)
  | hdrparse => exact .inr (.inr hscramble)

theorem payRead_scramblePay_beyond (s : State) {a : Nat} (ha : extractBytes s ≤ a) :
    s.scramblePay.payRead a = s.payRead a := by
  simp only [State.payRead, State.scramblePay]
  rw [memory_read_writeList_beyond _ _ (by simpa using ha)]

theorem pixRead_scramble_outside {i : Instr} (hrun : s.run = some r) (hop : r.opcl = encode i) {b : Bank} {x y : Nat}
    (hx : x < 2 ^ 16) (hout : ¬((i = .embed ∨ i = .hide) ∧ b = s.dst ∧ x < s.W ∧ y < s.H)) :
    s.scramble.pixRead b x y = s.pixRead b x y := by
  rcases scramble_cases hrun hop with ⟨hi, hscr⟩ | ⟨-, hscr⟩ | hscr <;> rw [hscr]
  · exact pixRead_writeRect_outside s _ hx fun hin => hout ⟨hi, hin⟩
  · rfl

theorem payRead_scramble_outside {i : Instr} (hrun : s.run = some r) (hop : r.opcl = encode i) {a : Nat}
    (hout : ¬(i = .extract ∧ a < extractBytes s)) : s.scramble.payRead a = s.payRead a := by
  rcases scramble_cases hrun hop with ⟨-, hscr⟩ | ⟨hi, hscr⟩ | hscr <;> rw [hscr]
  · exact payRead_congr (writeRect_pay ..) (writeRect_powerUp ..) a
  · exact payRead_scramblePay_beyond s (not_lt.mp fun ha => hout ⟨hi, ha⟩)

theorem scramble_pending {i : Instr} (hrun : s.run = some r) (hop : r.opcl = encode i) :
    s.scramble.pending = s.pending := by
  rcases scramble_cases hrun hop with ⟨-, hscr⟩ | ⟨-, hscr⟩ | hscr <;> rw [hscr]
  · exact writeRect_pending ..
  · rfl

/-- Settles O48: the step is `abandon`: the registers as after any reset, and what the running command spares. -/
theorem resetAbandonsTheRunningCommand : Obligations.ResetAbandonsTheRunningCommand := by
  intro s r i rest hbusy hrun hop hp
  let u : State := { s with pending := rest }
  have hrun : u.run = some r := hrun
  exact ⟨_, step_of_busy_reset hbusy hp, regRead_resetRegisters _, rfl, rfl, rfl, scramble_pending hrun hop,
    fun b x y hx _ hout => (pixRead_abandon u b x y).trans (pixRead_scramble_outside hrun hop hx hout),
    fun a hout => (payRead_abandon u a).trans (payRead_scramble_outside hrun hop hout)⟩

end Sys2Proof.Machine
end

section
/-! The moves of a run (42_engine.md R175, R176): what a pixel step and the end of a run can do to the state. -/

namespace Sys2Proof.Machine

variable {hb : Nat} {s : State} {r : Run}

/-! ## The embedding run -/

/-- What the three channels of an embedding's pixel step leave. -/
def embedLane (hb : Nat) (s : State) (r : Run) : EmbedLane :=
  channelOrder.foldl (embedChannel hb (hb + 8 * s.plen.toNat) s) { px := s.pixRead s.src r.x r.y, n := r.n, bsr := r.bsr }

theorem embedTick_of_exhausted (h : walkerExhausted s.W s.H r.y = true) : embedTick hb s r = finish none s :=
  if_pos h

theorem embedTick_of_walking (h : walkerExhausted s.W s.H r.y = false) :
    embedTick hb s r = { s.pixWrite s.dst r.x r.y (embedLane hb s r).px with
      run := some { r with
        x := (walkerNext s.W (r.x, r.y)).1, y := (walkerNext s.W (r.x, r.y)).2
        n := (embedLane hb s r).n, bsr := (embedLane hb s r).bsr } } :=
  if_neg (by simp [h])

/-! ## The extracting run -/

/-- What the three channels of an extraction's pixel step leave. -/
def extractLane (s : State) (r : Run) : ExtractLane :=
  channelOrder.foldl (extractChannel r.needed (s.pixRead s.src r.x r.y)) { n := r.n, hsr := r.hsr, bsr := r.bsr, pay := s.pay }

theorem extractTick_of_exhausted (h : walkerExhausted s.W s.H r.y = true) :
    extractTick s r = finish (some (exhaustedError r.phase)) s :=
  if_pos h

theorem extractTick_of_walking (h : walkerExhausted s.W s.H r.y = false) :
    extractTick s r = extractPhase { s with pay := (extractLane s r).pay } { r with
      x := (walkerNext s.W (r.x, r.y)).1, y := (walkerNext s.W (r.x, r.y)).2
      n := (extractLane s r).n, hsr := (extractLane s r).hsr, bsr := (extractLane s r).bsr } :=
  if_neg (by simp [h])

theorem extractEnd_of_complete (hphase : r.phase = .payload) (hn : r.n = r.needed) :
    extractEnd s r = finish none { s with plen := lengthField r.hsr } :=
  if_pos ⟨hphase, hn⟩

theorem extractEnd_of_incomplete (h : ¬(r.phase = .payload ∧ r.n = r.needed)) : extractEnd s r = { s with run := some r } :=
  if_neg h

/-- After a pixel step of an extraction the command ends, or it goes on with as many bits needed as before or as a Length
announces. -/
theorem extractPhase_cases (s : State) (r : Run) : ∃ hd : BitVec 48,
    (∃ e p, extractPhase s r = finish e { s with hdr := hd, plen := p }) ∨
      ∃ n ph, extractPhase s r = { s with hdr := hd, run := some { r with needed := n, phase := ph } } ∧
        (n = r.needed ∨ ∃ L : BitVec 32, n = neededBits L.toNat) := by
  have hend (s : State) (r : Run) : (∃ p, extractEnd s r = finish none { s with plen := p }) ∨
      extractEnd s r = { s with run := some r } := by
    by_cases h : r.phase = .payload ∧ r.n = r.needed
    · exact .inl ⟨_, extractEnd_of_complete h.1 h.2⟩
    · exact .inr (extractEnd_of_incomplete h)
  unfold extractPhase
  split
  case isTrue =>
    refine ⟨r.hsr, ?_⟩
    dsimp only
    split_ifs
    · exact .inl ⟨_, _, rfl⟩
    · exact .inl ⟨_, _, rfl⟩
    · rcases hend { s with hdr := r.hsr } { r with needed := neededBits (lengthField r.hsr).toNat, phase := .payload } with
        ⟨p, h⟩ | h
      · exact .inl ⟨none, p, h⟩
      · exact .inr ⟨_, _, h, .inr ⟨_, rfl⟩⟩
  case isFalse =>
    refine ⟨s.hdr, ?_⟩
    rcases hend s r with ⟨p, h⟩ | h
    · exact .inl ⟨none, p, h⟩
    · exact .inr ⟨_, _, h, .inl rfl⟩

end Sys2Proof.Machine
end

section
/-! Hold-off (70_reset_and_hazards.md R266): the engine's moves leave the host's list and its answers alone. -/

namespace Sys2Proof.Machine

variable {s t : State} {a : HostAction} {rest : List HostAction}

theorem embedTick_host (hb : Nat) (s : State) (r : Run) :
    (embedTick hb s r).pending = s.pending ∧ (embedTick hb s r).replies = s.replies := by
  cases hw : walkerExhausted s.W s.H r.y with
  | true => simp [embedTick_of_exhausted hw]
  | false => simp [embedTick_of_walking hw]

theorem extractPhase_host (s : State) (r : Run) :
    (extractPhase s r).pending = s.pending ∧ (extractPhase s r).replies = s.replies := by
  obtain ⟨hd, ⟨e, p, h⟩ | ⟨n, ph, h, -⟩⟩ := extractPhase_cases s r <;> simp [h]

theorem extractTick_host (s : State) (r : Run) :
    (extractTick s r).pending = s.pending ∧ (extractTick s r).replies = s.replies := by
  cases hw : walkerExhausted s.W s.H r.y with
  | true => simp [extractTick_of_exhausted hw]
  | false => simp [extractTick_of_walking hw, extractPhase_host]

theorem engineTick_host (h : engineTick s = .next t) : t.pending = s.pending ∧ t.replies = s.replies := by
  obtain ⟨r, -, ⟨-, rfl⟩ | ⟨-, rfl⟩ | ⟨-, rfl⟩⟩ := engineTick_cases h
  · exact embedTick_host 0 s r
  · exact embedTick_host 48 s r
  · exact extractTick_host s r

theorem step_of_busy_readStatus (hbusy : s.status.busy = true) (hp : s.pending = .readReg (regWord .status) :: rest) :
    step s = .next (State.reply { s with pending := rest } (.word s.status.word)) := by
  simp only [step, hbusy, if_true, busyStep, hp]

theorem step_of_busy_held (hbusy : s.status.busy = true) (hp : s.pending = a :: rest)
    (hstatus : a ≠ .readReg (regWord .status)) (hreset : a ≠ .reset) (hwait : a ≠ .wait) : step s = engineTick s := by
  simp only [step, hbusy, if_true, busyStep, hp]
  cases a with
  | readReg word => exact if_neg fun hw => hstatus (congrArg HostAction.readReg hw)
  | reset => exact absurd rfl hreset
  | wait => exact absurd rfl hwait
  | _ => rfl

/-- A consistent `STATUS` that shows `BUSY` shows nothing else. -/
theorem status_eq_started {st : Status} (hbusy : st.busy = true) (hok : st.ok) : st = statusStarted := by
  obtain ⟨busy, done, err, ecode⟩ := st
  obtain rfl : busy = true := hbusy
  obtain ⟨hexcl, herr, hcode, -⟩ := hok
  obtain rfl : done = false := by simpa using hexcl
  obtain rfl : ecode = 0 := hcode rfl
  obtain rfl : err = false := by simpa using herr
  rfl

/-- Settles O49: the read of `STATUS` answers the word of a started command; else the step is the engine's move. -/
theorem hostIsHeldOffWhileBusy : Obligations.HostIsHeldOffWhileBusy := by
  intro s a rest hbusy hok hp
  refine ⟨?_, fun hstatus hreset hwait => ?_⟩
  · rintro rfl
    rw [step_of_busy_readStatus hbusy hp, status_eq_started hbusy hok]
    rfl
  · have hstep := step_of_busy_held hbusy hp hstatus hreset hwait
    exact ⟨hstep, fun t ht => engineTick_host (hstep.symm.trans ht)⟩

end Sys2Proof.Machine
end

section
/-! The start of a command at the pixel-step pace (30_encoding.md R81): an equation for each command that is left running. -/

namespace Sys2Proof.Machine

variable {s : State}

theorem launch_embed (s : State) : launch .embed s = .next (accept (encode .embed) s) :=
  withStorage_of_next (execEmbed_eq s) _

theorem launch_hide_of_some {e : ErrorKind} (hc : hideCheck (maxCapacity s.W s.H) s.plen.toNat = some e) :
    launch .hide s = .next (finish (some e) s) := by
  refine (withStorage_of_next (execHide_eq s) _).trans ?_
  rw [hc]
  rfl

/-- The run that `HIDE` and `EXTRACT` start with the capacity in `CAPI`. -/
def capacityRun (i : Instr) (s : State) : Run :=
  { startRun (encode i) with capi := maxCapacity s.W s.H }

theorem launch_hide_of_none (hc : hideCheck (maxCapacity s.W s.H) s.plen.toNat = none) :
    launch .hide s = .next { s with
      status := statusStarted, run := some (capacityRun .hide s), hdr := hdrOfBits (serializeHeader s.plen.toNat) } := by
  refine (withStorage_of_next (execHide_eq s) _).trans ?_
  rw [hc]
  rfl

theorem launch_extract (s : State) :
    launch .extract s = .next { s with status := statusStarted, run := some (capacityRun .extract s) } :=
  withStorage_of_next (execExtract_eq s) _

end Sys2Proof.Machine
end

section
/-! The block's invariant: it holds at reset, and each thing that a step can be keeps it. -/

namespace Sys2Proof.Machine

variable {s t : State} {r : Run}

/-! ## `STATUS` -/

theorem statusEnded_ok (e : Option ErrorKind) : (statusEnded e).ok := by
  cases e with
  | none => decide
  | some k => cases k <;> decide

theorem statusStarted_ok : statusStarted.ok := by
  decide

/-! ## The idle and the busy states -/

/-- An ended command leaves a state that meets the invariant, if its memories and `CAP` do. -/
theorem inv_finish (e : Option ErrorKind) (hm : s.memoriesOk) (hcap : s.cap.toNat < 2 ^ 31) : (finish e s).Inv :=
  ⟨hm, statusEnded_ok e, by simp [statusEnded], by simp, hcap⟩

theorem inv_running (hm : s.memoriesOk) (hcap : s.cap.toNat < 2 ^ 31) (hstatus : s.status = statusStarted)
    (hrun : s.run = some r) (hr : r.ok) : s.Inv := by
  refine ⟨hm, hstatus ▸ statusStarted_ok, by simp [hstatus, hrun, statusStarted], ?_, hcap⟩
  rintro _ hmem
  obtain rfl := Option.some.inj (hrun.symm.trans hmem)
  exact hr

theorem inv_resetRegisters (hm : s.memoriesOk) : s.resetRegisters.Inv :=
  ⟨hm, show State.reset.status.ok by decide, by simp [State.reset], nofun, by simp⟩

/-- Settles O50: no memory lists a location, and the registers are those of any reset. -/
theorem resetMeetsTheInvariant : Obligations.ResetMeetsTheInvariant :=
  inv_resetRegisters (s := State.reset) ⟨memory_wf_nil, memory_wf_nil, memory_wf_nil⟩

/-! ## Commands -/

theorem exec_memoriesOk {i : Instr} (hm : s.memoriesOk) (h : exec i s = .next t) : t.memoriesOk := by
  obtain ⟨h0, h1, hpay⟩ := hm
  have hbanks : ∀ b, Memory.wf (t.bank b) := by
    intro b
    rcases exec_bank_cases h with hbank | ⟨G, hbank⟩ <;> rw [hbank]
    · exact bank_wf b h0 h1
    · obtain ⟨h0', h1'⟩ := writeRect_wf s.dst G h0 h1
      exact bank_wf b h0' h1'
  refine ⟨hbanks 0, hbanks 1, ?_⟩
  rcases exec_pay_cases h with heq | ⟨bytes, hlen, heq⟩ <;> rw [heq]
  · exact hpay
  · exact memory_wf_writeList hpay (by have := t.plen.isLt; omega)

theorem exec_cap_lt {i : Instr} (hcap : s.cap.toNat < 2 ^ 31) (h : exec i s = .next t) : t.cap.toNat < 2 ^ 31 := by
  by_cases hi : i = .cap
  · subst hi
    obtain rfl := next_unique h (exec_cap s)
    exact (Nat.mod_le ..).trans_lt (maxCapacity_lt s)
  · obtain ⟨-, -, -, -, hkeep, -⟩ := commandsWriteOnlyTheirColumns i s t h
    rwa [hkeep hi]

theorem exec_inv {i : Instr} (hs : s.Inv) (h : exec i s = .next t) : t.Inv := by
  obtain ⟨hm, -, -, -, hcap⟩ := hs
  have hm' := exec_memoriesOk hm h
  have hcap' := exec_cap_lt hcap h
  obtain ⟨e, u, hu⟩ := exec_finishes i s
  obtain rfl := next_unique h hu
  exact inv_finish e hm' hcap'

/-- A run that has just started, of a command with pixel steps. -/
theorem startRun_ok {i : Instr} (hi : i = .embed ∨ i = .hide ∨ i = .extract) (c : Nat) :
    ({ startRun (encode i) with capi := c } : Run).ok := by
  refine ⟨?_, Nat.two_pow_pos _, Nat.zero_le _, Nat.le_add_right ..⟩
  rcases hi with rfl | rfl | rfl <;> simp [startRun]

theorem launch_inv {i : Instr} (hs : s.Inv) (h : launch i s = .next t) : t.Inv := by
  obtain ⟨hm, -, -, -, hcap⟩ := id hs
  cases i with
  | cap => exact exec_inv (i := .cap) hs h
  | hdrser => exact exec_inv (i := .hdrser) hs h
  | hdrparse => exact exec_inv (i := .hdrparse) hs h
  | embed =>
    obtain rfl := Host.Outcome.next.inj ((launch_embed s).symm.trans h)
    exact inv_running hm hcap rfl rfl (startRun_ok (.inl rfl) 0)
  | hide =>
    cases hc : hideCheck (maxCapacity s.W s.H) s.plen.toNat with
    | some e =>
      obtain rfl := Host.Outcome.next.inj ((launch_hide_of_some hc).symm.trans h)
      exact inv_finish _ hm hcap
    | none =>
      obtain rfl := Host.Outcome.next.inj ((launch_hide_of_none hc).symm.trans h)
      exact inv_running hm hcap rfl rfl (startRun_ok (.inr (.inl rfl)) _)
  | extract =>
    obtain rfl := Host.Outcome.next.inj ((launch_extract s).symm.trans h)
    exact inv_running hm hcap rfl rfl (startRun_ok (.inr (.inr rfl)) _)

theorem command_inv {c : Word} (hs : s.Inv) (h : command c s = .next t) : t.Inv := by
  rcases command_cases h with ⟨e, -, rfl⟩ | ⟨i, -, ⟨-, hexec⟩ | ⟨-, hlaunch⟩⟩
  · obtain ⟨hm, -, -, -, hcap⟩ := hs
    exact inv_finish _ hm hcap
  · exact exec_inv hs hexec
  · exact launch_inv hs hlaunch

/-! ## The host -/

theorem wordWrite_inv (hs : s.Inv) (word : Nat) (v : Word) : (s.wordWrite word v).Inv := by
  unfold State.wordWrite
  split
  case h_1 r _ => rw [regWrite_frame]; exact hs
  case h_2 => exact hs

theorem pixWrite_inv (hs : s.Inv) (b : Bank) {x y : Nat} (px : Pixel) (hx : x < 2 ^ 16) (hy : y < 2 ^ 16) :
    (s.pixWrite b x y px).Inv := by
  obtain ⟨⟨h0, h1, hpay⟩, hrest⟩ := hs
  obtain ⟨h0', h1'⟩ := pixWrite_wf b px hx hy h0 h1
  rw [pixWrite_frame]
  exact ⟨⟨h0', h1', hpay⟩, hrest⟩

theorem hostAct_inv {a : HostAction} (hs : s.Inv) (h : hostAct a s = .next t) : t.Inv := by
  cases a with
  | writeReg word v =>
    by_cases hw : word = regWord .cmd
    · rw [hw, hostAct_writeCmd] at h
      exact command_inv hs h
    · obtain rfl := Host.Outcome.next.inj ((hostAct_writeReg_of_ne_cmd s hw v).symm.trans h)
      exact wordWrite_inv hs word v
  | writePix b x y w =>
    obtain rfl := Host.Outcome.next.inj h
    exact pixWrite_inv hs b _ x.isLt y.isLt
  | writePay addr v =>
    obtain rfl := Host.Outcome.next.inj h
    obtain ⟨⟨h0, h1, hpay⟩, hrest⟩ := hs
    exact ⟨⟨h0, h1, memory_wf_write hpay addr.isLt v⟩, hrest⟩
  | reset =>
    obtain rfl := Host.Outcome.next.inj h
    exact inv_resetRegisters hs.1
  | readReg word | readPix b x y | readPay addr | wait =>
    obtain rfl := Host.Outcome.next.inj h
    exact hs

/-! ## The running command -/

theorem inv_with_run (hs : s.Inv) (hsome : s.run.isSome = true) (hr : r.ok) : State.Inv { s with run := some r } := by
  obtain ⟨hm, hstatus, hbusy, -, hcap⟩ := hs
  refine ⟨hm, hstatus, ⟨fun _ => rfl, fun _ => hbusy.mpr hsome⟩, ?_, hcap⟩
  rintro _ ⟨⟩
  exact hr

theorem of_not_walkerExhausted {W H y : Nat} (h : walkerExhausted W H y = false) : 0 < W ∧ y < H := by
  simp only [walkerExhausted, Bool.or_eq_false_iff, beq_eq_false_iff_ne, decide_eq_false_iff_not, not_le] at h
  exact ⟨Nat.pos_of_ne_zero h.1, h.2⟩

/-- The walker's next place is inside its bounds. -/
theorem walkerNext_bounds (hw : walkerExhausted s.W s.H r.y = false) :
    (walkerNext s.W (r.x, r.y)).1 < 2 ^ 16 ∧ (walkerNext s.W (r.x, r.y)).2 ≤ 2 ^ 16 := by
  have hW : s.W < 2 ^ 16 := s.width.isLt
  have hH : s.H < 2 ^ 16 := s.height.isLt
  obtain ⟨-, hy⟩ := of_not_walkerExhausted hw
  unfold walkerNext
  split <;> constructor <;> dsimp only at * <;> omega

theorem embedTick_inv {hb : Nat} (hs : s.Inv) (hrun : s.run = some r) : (embedTick hb s r).Inv := by
  obtain ⟨hm, -, -, hruns, hcap⟩ := id hs
  obtain ⟨hop, hx, -, hneeded⟩ := hruns r hrun
  cases hw : walkerExhausted s.W s.H r.y with
  | true =>
    rw [embedTick_of_exhausted hw]
    exact inv_finish _ hm hcap
  | false =>
    rw [embedTick_of_walking hw]
    obtain ⟨hx', hy'⟩ := walkerNext_bounds hw
    obtain ⟨-, hy⟩ := of_not_walkerExhausted hw
    exact inv_with_run (pixWrite_inv hs s.dst _ hx (hy.trans s.height.isLt)) (by simp [hrun]) ⟨hop, hx', hy', hneeded⟩

theorem extractChannel_pay_wf {needed : Nat} (hneeded : needed ≤ neededBits (2 ^ Config.lengthBits - 1)) (px : Pixel)
    {l : ExtractLane} (hl : Memory.wf l.pay) (c : Fin Config.channels) :
    Memory.wf (extractChannel needed px l c).pay := by
  rw [neededBits_eq, Config.lengthBits_eq] at hneeded
  simp only [extractChannel, Config.headerBits_eq]
  split_ifs
  case pos => exact hl
  case pos => exact memory_wf_write hl (by omega) _
  all_goals exact hl

/-- A pixel step writes no payload byte beyond those that a 32-bit Length can announce. -/
theorem extractLane_pay_wf (hpay : Memory.wf s.pay) (hneeded : r.needed ≤ neededBits (2 ^ Config.lengthBits - 1)) :
    Memory.wf (extractLane s r).pay :=
  List.foldlRecOn (motive := fun l : ExtractLane => Memory.wf l.pay) channelOrder _ hpay fun _ hl c _ =>
    extractChannel_pay_wf hneeded _ hl c

theorem extractPhase_inv (hs : s.Inv) (hsome : s.run.isSome = true) (hr : r.ok) : (extractPhase s r).Inv := by
  obtain ⟨hm, -, -, -, hcap⟩ := id hs
  obtain ⟨hop, hx, hy, hneeded⟩ := hr
  obtain ⟨hd, ⟨e, p, h⟩ | ⟨n, ph, h, hn⟩⟩ := extractPhase_cases s r <;> rw [h]
  · exact inv_finish e hm hcap
  · refine inv_with_run (s := { s with hdr := hd }) hs hsome ⟨hop, hx, hy, ?_⟩
    rcases hn with rfl | ⟨L, rfl⟩
    · exact hneeded
    · have hL := L.isLt
      simp only [neededBits_eq, Config.lengthBits_eq]
      omega

theorem extractTick_inv (hs : s.Inv) (hrun : s.run = some r) : (extractTick s r).Inv := by
  obtain ⟨⟨h0, h1, hpay⟩, hstatus, hbusy, hruns, hcap⟩ := hs
  obtain ⟨hop, -, -, hneeded⟩ := hruns r hrun
  cases hw : walkerExhausted s.W s.H r.y with
  | true =>
    rw [extractTick_of_exhausted hw]
    exact inv_finish _ ⟨h0, h1, hpay⟩ hcap
  | false =>
    rw [extractTick_of_walking hw]
    obtain ⟨hx', hy'⟩ := walkerNext_bounds hw
    exact extractPhase_inv ⟨⟨h0, h1, extractLane_pay_wf hpay hneeded⟩, hstatus, hbusy, hruns, hcap⟩ (by simp [hrun])
      ⟨hop, hx', hy', hneeded⟩

theorem engineTick_inv (hs : s.Inv) (h : engineTick s = .next t) : t.Inv := by
  obtain ⟨r, hrun, ⟨-, rfl⟩ | ⟨-, rfl⟩ | ⟨-, rfl⟩⟩ := engineTick_cases h
  · exact embedTick_inv hs hrun
  · exact embedTick_inv hs hrun
  · exact extractTick_inv hs hrun

/-! ## The running command abandoned -/

theorem extractBytes_lt (s : State) : extractBytes s < 2 ^ 31 := by
  unfold extractBytes
  split
  · norm_num
  · exact (found_length_le ‹_›).trans_lt (maxCapacity_lt s)

theorem scramble_memoriesOk {i : Instr} (hm : s.memoriesOk) (hrun : s.run = some r) (hop : r.opcl = encode i) :
    s.scramble.memoriesOk := by
  obtain ⟨h0, h1, hpay⟩ := id hm
  rcases scramble_cases hrun hop with ⟨-, hscr⟩ | ⟨-, hscr⟩ | hscr <;> rw [hscr]
  · obtain ⟨h0', h1'⟩ := writeRect_wf s.dst _ h0 h1
    exact ⟨h0', h1', (writeRect_pay ..).symm ▸ hpay⟩
  · have hlen := extractBytes_lt s
    exact ⟨h0, h1, memory_wf_writeList hpay (by rw [List.length_map, List.length_range]; omega)⟩
  · exact hm

theorem abandon_inv (hs : s.Inv) (hbusy : s.status.busy = true) : s.abandon.Inv := by
  obtain ⟨hm, -, hiff, hruns, -⟩ := hs
  obtain ⟨r, hrun⟩ := Option.isSome_iff_exists.mp (hiff.mp hbusy)
  obtain ⟨hop | hop | hop, -⟩ := hruns r hrun
  all_goals exact inv_resetRegisters (scramble_memoriesOk hm hrun hop)

/-- Settles O51: each thing that a step can be keeps the invariant, which does not see the host's list and answers. -/
theorem stepKeepsTheInvariant : Obligations.StepKeepsTheInvariant := by
  intro s t hs h
  rcases step_cases h with ⟨hbusy, htick | ⟨a, rest, -, ⟨-, htick⟩ | ⟨-, rfl⟩ | ⟨-, rfl⟩⟩⟩ |
    ⟨-, ⟨-, rfl⟩ | ⟨a, rest, -, hact⟩⟩
  · exact engineTick_inv hs htick
  · exact engineTick_inv (s := { s with pending := rest }) hs htick
  · exact abandon_inv (s := { s with pending := rest }) hs hbusy
  · exact hs
  · exact hs
  · exact hostAct_inv (s := { s with pending := rest }) hs hact

end Sys2Proof.Machine
end

section
/-! The machine's run when the host does nothing more: it follows the engine's moves, and stays where they end. -/

namespace Sys2Proof.Machine

variable {s t u : State} {f : Nat → State} {k m n : Nat}

theorem run_succ_of_step (h : step s = .next u) (k : Nat) : Sys2Proof.core.run (k + 1) s = Sys2Proof.core.run k u := by
  simp only [Host.Core.run, show Sys2Proof.core.step s = .next u from h]

theorem run_of_idle_nil (hidle : s.status.busy = false) (hp : s.pending = []) (k : Nat) :
    Sys2Proof.core.run k s = .next s := by
  induction k with
  | zero => rfl
  | succ k ih => rw [run_succ_of_step (step_of_idle_nil hidle hp), ih]

/-- From `s`, with nothing for the host to do, the engine makes `n` moves and is then idle in `t`. -/
inductive EndsAfter : Nat → State → State → Prop
  | idle {t : State} (hidle : t.status.busy = false) (hp : t.pending = []) : EndsAfter 0 t t
  | move {n : Nat} {s u t : State} (hbusy : s.status.busy = true) (hp : s.pending = [])
      (hmove : engineTick s = .next u) (hrest : EndsAfter n u t) : EndsAfter (n + 1) s t

theorem EndsAfter.run_of_le (h : EndsAfter n s t) (hk : n ≤ k) : Sys2Proof.core.run k s = .next t := by
  induction h generalizing k with
  | idle hidle hp => exact run_of_idle_nil hidle hp k
  | move hbusy hp hmove _ ih =>
    obtain ⟨k, rfl⟩ := Nat.exists_eq_add_of_le' (Nat.one_le_of_lt hk)
    rw [run_succ_of_step ((step_of_busy_nil hbusy hp).trans hmove), ih (Nat.le_of_succ_le_succ hk)]

theorem EndsAfter.end_idle (h : EndsAfter n s t) : t.status.busy = false := by
  induction h with
  | idle hidle _ => exact hidle
  | move _ _ _ _ ih => exact ih

theorem EndsAfter.run_of_lt (h : EndsAfter n s t) (hk : k < n) :
    ∃ u, Sys2Proof.core.run k s = .next u ∧ u.status.busy = true := by
  induction h generalizing k with
  | idle => exact absurd hk (Nat.not_lt_zero k)
  | move hbusy hp hmove _ ih =>
    cases k with
    | zero => exact ⟨_, rfl, hbusy⟩
    | succ k =>
      rw [run_succ_of_step ((step_of_busy_nil hbusy hp).trans hmove)]
      exact ih (Nat.lt_of_succ_lt_succ hk)

theorem EndsAfter.busy_iff (h : EndsAfter n s t) (k : Nat) :
    ∃ u, Sys2Proof.core.run k s = .next u ∧ (u.status.busy = true ↔ k < n) := by
  by_cases hk : k < n
  · obtain ⟨u, hu, hbusy⟩ := h.run_of_lt hk
    exact ⟨u, hu, iff_of_true hbusy hk⟩
  · exact ⟨t, h.run_of_le (not_lt.mp hk), iff_of_false (by simp [h.end_idle]) hk⟩

/-- The first `m` states of `f` are busy with nothing for the host to do, and each moves to the next. -/
def MovesAlong (f : Nat → State) (m : Nat) : Prop :=
  ∀ k < m, (f k).status.busy = true ∧ (f k).pending = [] ∧ engineTick (f k) = .next (f (k + 1))

theorem MovesAlong.endsAfter (hf : MovesAlong f m) (h : EndsAfter n (f m) t) : EndsAfter (m + n) (f 0) t := by
  induction m generalizing n with
  | zero => rwa [Nat.zero_add]
  | succ m ih =>
    obtain ⟨hbusy, hp, hmove⟩ := hf m (Nat.lt_succ_self m)
    rw [Nat.add_right_comm, Nat.add_assoc]
    exact ih (fun k hk => hf k (Nat.lt_succ_of_lt hk)) (.move hbusy hp hmove h)

theorem MovesAlong.run (hf : MovesAlong f m) (hk : k ≤ m) : Sys2Proof.core.run k (f 0) = .next (f k) := by
  induction k generalizing f m with
  | zero => rfl
  | succ k ih =>
    obtain ⟨m, rfl⟩ := Nat.exists_eq_add_of_le' (Nat.one_le_of_lt hk)
    obtain ⟨hbusy, hp, hmove⟩ := hf 0 (Nat.succ_pos m)
    rw [run_succ_of_step ((step_of_busy_nil hbusy hp).trans hmove)]
    exact ih (f := fun j => f (j + 1)) (fun j hj => hf (j + 1) (Nat.succ_lt_succ hj)) (Nat.le_of_succ_le_succ hk)

/-- A command written to `CMD` at the pixel-step pace: the first step is its start. -/
theorem run_of_writeCmd {i : Instr} (hidle : s.status.busy = false) (hpace : s.stepwise = true)
    (hp : s.pending = [.writeReg (regWord .cmd) (encode i)]) (hu : launch i { s with pending := [] } = .next u) (k : Nat) :
    Sys2Proof.core.run (1 + k) s = Sys2Proof.core.run k u := by
  rw [Nat.add_comm]
  refine run_succ_of_step ?_ k
  rw [step_of_idle_writeCmd hidle hp, command_of_ok _ (decode_encode_eq i), if_pos hpace, hu]

end Sys2Proof.Machine
end

section
/-! The embedding run (42_engine.md R175): the state at its `k`-th pixel step, in terms of the grid that `embed` gives. -/

namespace Sys2Proof.Machine

variable {hb k m : Nat} {s t : State} {r : Run} {bits : List Bit}

/-! ## The bit source -/

/-- Bit `n` of the bit source (42_engine.md R177): a header bit, or a bit of its payload byte. -/
def sourceBit (hb : Nat) (s : State) (n : Nat) : Bit :=
  if n < hb then s.hdr.getLsbD (hb - 1 - n) else (s.payRead ((n - hb) / 8)).getLsbD (7 - (n - hb) % 8)

/-- `BSR` after `n` bits: the byte of the last bit taken, shifted once for each of its bits taken. -/
def bsrAfter (hb : Nat) (s : State) (n : Nat) : Byte :=
  if n ≤ hb then 0 else s.payRead ((n - hb - 1) / 8) <<< ((n - hb - 1) % 8 + 1)

/-- `BSR` shifts a payload byte out, its next bit always at the top. -/
theorem nextBit_bsrAfter (hb : Nat) (s : State) (n : Nat) :
    nextBit hb s n (bsrAfter hb s n) = (sourceBit hb s n, bsrAfter hb s (n + 1)) := by
  by_cases hn : n < hb
  · simp [nextBit, sourceBit, bsrAfter, hn, hn.le]
  · obtain ⟨j, rfl⟩ := Nat.exists_eq_add_of_le (not_lt.mp hn)
    have hafter : bsrAfter hb s (hb + j + 1) = s.payRead (j / 8) <<< (j % 8 + 1) := by
      rw [bsrAfter, if_neg (by omega), show hb + j + 1 - hb - 1 = j by omega]
    rw [nextBit, sourceBit, if_neg hn, if_neg hn, hafter, Nat.add_sub_cancel_left]
    by_cases hj : j % 8 = 0
    · simp [hj]
    · have hbefore : bsrAfter hb s (hb + j) = s.payRead (j / 8) <<< (j % 8) := by
        rw [bsrAfter, if_neg (by omega), show hb + j - hb - 1 = j - 1 by omega, show (j - 1) / 8 = j / 8 by omega,
          show (j - 1) % 8 + 1 = j % 8 by omega]
      have htop : (s.payRead (j / 8) <<< (j % 8)).getLsbD 7 = (s.payRead (j / 8)).getLsbD (7 - j % 8) := by
        rw [BitVec.getLsbD_shiftLeft]
        simp [show ¬7 < j % 8 by omega]
      simp only [hj, if_false, hbefore, htop, BitVec.shiftLeft_add]

/-- Within the grid's stream `bits` holds exactly the `NB` bits that the source offers. -/
def Offers (hb : Nat) (s : State) (bits : List Bit) : Prop :=
  ∀ k < totalBits s.W s.H, bits[k]? = if k < hb + 8 * s.plen.toNat then some (sourceBit hb s k) else none

theorem offers_embedBits (s : State) : Offers 0 s s.embedBits := by
  intro k hk
  rw [embedBits_get s hk, Nat.zero_add]
  rfl

theorem offers_frame (hhdr : s.hdr = hdrOfBits (serializeHeader s.plen.toNat)) :
    Offers 48 s (frame (s.payload s.plen.toNat)) := by
  intro k _
  rw [frame_payload_get, ← hdrOfBits_serializeHeader, ← hhdr]
  by_cases hk : k < 48
  · rw [if_pos hk, if_pos (by omega), sourceBit, if_pos hk]
  · rw [if_neg hk, sourceBit, if_neg hk]

/-! ## One pixel step -/

/-- What an embedding carries after `m` channels of the scan. -/
def embedLaneAt (hb : Nat) (s : State) (px : Pixel) (m : Nat) : EmbedLane :=
  { px := px, n := min (hb + 8 * s.plen.toNat) m, bsr := bsrAfter hb s (min (hb + 8 * s.plen.toNat) m) }

@[simp] theorem setCh_ch (px : Pixel) (c : Fin Config.channels) : px.setCh c (px.ch c) = px := by
  fin_cases c <;> rfl

theorem embedChannel_laneAt (h : bits[m]? = if m < hb + 8 * s.plen.toNat then some (sourceBit hb s m) else none)
    (px : Pixel) (c : Fin Config.channels) :
    embedChannel hb (hb + 8 * s.plen.toNat) s (embedLaneAt hb s px m) c
      = embedLaneAt hb s (px.setCh c (embedSample (px.ch c) bits[m]?)) (m + 1) := by
  by_cases hm : m < hb + 8 * s.plen.toNat
  · simp only [embedChannel, embedLaneAt, h, hm, if_true, min_eq_right hm.le, min_eq_right (Nat.succ_le_of_lt hm),
      nextBit_bsrAfter, embedSample]
  · have hle := not_lt.mp hm
    simp only [embedChannel, embedLaneAt, h, hm, if_false, min_eq_left hle, min_eq_left (hle.trans (Nat.le_succ m)),
      lt_irrefl, embedSample, setCh_ch]

theorem foldl_embedChannel (hoff : Offers hb s bits) (hk : k < s.W * s.H) (px : Pixel) :
    channelOrder.foldl (embedChannel hb (hb + 8 * s.plen.toNat) s) (embedLaneAt hb s px (3 * k))
      = embedLaneAt hb s (embedPixel bits k px) (3 * (k + 1)) := by
  have hT : 3 * k + 2 < totalBits s.W s.H := by rw [totalBits_eq]; omega
  simp only [channelOrder, List.foldl_cons, List.foldl_nil]
  rw [embedChannel_laneAt (hoff (3 * k) (by omega)), embedChannel_laneAt (hoff (3 * k + 1) (by omega)),
    embedChannel_laneAt (hoff (3 * k + 2) hT)]
  rfl

/-! ## The state at a pixel step -/

/-- The destination bank after `k` pixel steps: the first `k` pixels of the scan are those of the embedded grid. -/
def embedBank (bits : List Bit) (s : State) (k : Nat) : Memory Pixel :=
  ((scan s.W s.H).take k).foldl
    (fun m q => m.write (gridKey q.1 q.2) (embed (s.grid s.src) s.W bits q.1 q.2)) (s.bank s.dst)

theorem embedBank_succ (bits : List Bit) (hk : k < s.W * s.H) :
    embedBank bits s (k + 1) = (embedBank bits s k).write (gridKey (k % s.W) (k / s.W))
      (embedPixel bits k (s.pixRead s.src (k % s.W) (k / s.W))) := by
  rw [embedBank, List.take_add_one, scan_get hk, List.foldl_append, ← embedBank]
  simp only [Option.toList_some, List.foldl_cons, List.foldl_nil, embed, Nat.div_add_mod', State.grid]

theorem setBank_embedBank (bits : List Bit) (s : State) :
    s.setBank s.dst (embedBank bits s (s.W * s.H)) = s.writeRect s.dst (embed (s.grid s.src) s.W bits) := by
  rw [embedBank, List.take_of_length_le (scan_length ..).le]
  rfl

/-- The hidden state after `k` pixel steps. -/
def embedRunAt (hb : Nat) (s : State) (r : Run) (k : Nat) : Run :=
  { r with
    x := k % s.W, y := k / s.W
    n := min (hb + 8 * s.plen.toNat) (3 * k), bsr := bsrAfter hb s (min (hb + 8 * s.plen.toNat) (3 * k)) }

/-- The state `k` pixel steps into the embedding run that started in `s` with hidden state `r`. -/
def embedAt (hb : Nat) (bits : List Bit) (s : State) (r : Run) (k : Nat) : State :=
  { s.setBank s.dst (embedBank bits s k) with run := some (embedRunAt hb s r k) }

theorem setBank_bank_with_run (s : State) (b : Bank) (r : Option Run) (hrun : s.run = r) :
    { s.setBank b (s.bank b) with run := r } = s := by
  subst hrun
  rcases bank_cases b with rfl | rfl <;> rfl

theorem pixWrite_setBank_with_run (s : State) (b : Bank) (m : Memory Pixel) (r r' : Option Run) (x y : Nat) (px : Pixel) :
    { State.pixWrite { s.setBank b m with run := r } b x y px with run := r' }
      = { s.setBank b (m.write (gridKey x y) px) with run := r' } := by
  rcases bank_cases b with rfl | rfl <;> rfl

theorem nextBit_congr (hhdr : t.hdr = s.hdr) (hpay : t.pay = s.pay) (hpow : t.powerUp = s.powerUp) :
    nextBit hb t = nextBit hb s := by
  funext n bsr
  simp only [nextBit, hhdr, payRead_congr hpay hpow]

theorem embedLane_embedAt (hoff : Offers hb s bits) (hk : k < s.W * s.H) :
    embedLane hb (embedAt hb bits s r k) (embedRunAt hb s r k)
      = embedLaneAt hb s (embedPixel bits k (s.pixRead s.src (k % s.W) (k / s.W))) (3 * (k + 1)) := by
  have hchannel : embedChannel hb (hb + 8 * s.plen.toNat) (embedAt hb bits s r k)
      = embedChannel hb (hb + 8 * s.plen.toNat) s := by
    funext l c
    simp only [embedChannel, nextBit_congr (hb := hb) (s := s) (t := embedAt hb bits s r k)
      (setBank_hdr ..) (setBank_pay ..) (setBank_powerUp ..)]
  have hsrc : (embedAt hb bits s r k).src = s.src := setBank_src ..
  have hplen : (embedAt hb bits s r k).plen = s.plen := setBank_plen ..
  have hpix (x y : Nat) : (embedAt hb bits s r k).pixRead s.src x y = s.pixRead s.src x y :=
    pixRead_congr (bank_setBank_other _ _ (dst_ne_src s).symm) (setBank_powerUp ..) x y
  rw [← foldl_embedChannel hoff hk, embedLane, hplen, hchannel, hsrc, hpix]
  rfl

theorem walkerExhausted_scan_iff {W H : Nat} (hk : k ≤ W * H) : walkerExhausted W H (k / W) = true ↔ k = W * H := by
  rcases Nat.eq_zero_or_pos W with rfl | hW
  · simpa [walkerExhausted] using hk
  · rw [walkerExhausted_iff hW, Nat.le_div_iff_mul_le hW, Nat.mul_comm H W]
    exact ⟨fun h => le_antisymm hk h, ge_of_eq⟩

/-- The key fact: a pixel step goes from the `k`-th state to the next. -/
theorem embedTick_embedAt (hoff : Offers hb s bits) (hk : k < s.W * s.H) :
    embedTick hb (embedAt hb bits s r k) (embedRunAt hb s r k) = embedAt hb bits s r (k + 1) := by
  have hW : (embedAt hb bits s r k).W = s.W := setBank_W ..
  have hH : (embedAt hb bits s r k).H = s.H := setBank_H ..
  have hdst : (embedAt hb bits s r k).dst = s.dst := setBank_dst ..
  have hwalk : walkerExhausted s.W s.H (k / s.W) = false :=
    Bool.eq_false_iff.mpr (mt (walkerExhausted_scan_iff hk.le).mp hk.ne)
  have hnext : walkerNext s.W (k % s.W, k / s.W) = ((k + 1) % s.W, (k + 1) / s.W) :=
    walkerNext_mod_div (Nat.pos_of_mul_pos_right (Nat.zero_lt_of_lt hk)) k
  rw [embedTick_of_walking (by rw [hW, hH]; exact hwalk), embedLane_embedAt hoff hk, hW, hdst]
  simp only [embedRunAt, hnext, embedLaneAt]
  rw [embedAt, embedAt, pixWrite_setBank_with_run, ← embedBank_succ bits hk]
  rfl

theorem embedTick_embedAt_last (hb : Nat) (bits : List Bit) (s : State) (r : Run) :
    embedTick hb (embedAt hb bits s r (s.W * s.H)) (embedRunAt hb s r (s.W * s.H))
      = finish none (s.writeRect s.dst (embed (s.grid s.src) s.W bits)) := by
  have hW : (embedAt hb bits s r (s.W * s.H)).W = s.W := setBank_W ..
  have hH : (embedAt hb bits s r (s.W * s.H)).H = s.H := setBank_H ..
  rw [embedTick_of_exhausted (by rw [hW, hH]; exact (walkerExhausted_scan_iff le_rfl).mpr rfl), ← setBank_embedBank]
  rfl

/-! ## The run -/

/-- The number of header bits in front of the payload's (42_engine.md R177). -/
def headerCount (i : Instr) : Nat :=
  if i = .hide then 48 else 0

theorem engineTick_embedding {i : Instr} (hi : i = .embed ∨ i = .hide) (hrun : s.run = some r) (hop : r.opcl = encode i) :
    engineTick s = .next (embedTick (headerCount i) s r) := by
  rcases hi with rfl | rfl
  · exact engineTick_embed hrun hop
  · exact engineTick_hide hrun hop

/-- `s` is where the start of an `EMBED`, or of a `HIDE` whose checks pass, leaves the block, with `bits` to embed. -/
structure EmbeddingStarted (i : Instr) (bits : List Bit) (r : Run) (s : State) : Prop where
  command : i = .embed ∨ i = .hide
  status : s.status = statusStarted
  pending : s.pending = []
  run : s.run = some r
  fresh : r = { startRun (encode i) with capi := r.capi }
  offers : Offers (headerCount i) s bits

section
variable {i : Instr} (h : EmbeddingStarted i bits r s)
include h

theorem EmbeddingStarted.embedAt_zero : embedAt (headerCount i) bits s r 0 = s := by
  have hr : embedRunAt (headerCount i) s r 0 = r := by
    rw [h.fresh]
    simp [embedRunAt, startRun, bsrAfter]
  rw [embedAt, hr]
  exact setBank_bank_with_run s s.dst _ h.run

theorem EmbeddingStarted.status_embedAt (k : Nat) : (embedAt (headerCount i) bits s r k).status = statusStarted :=
  (setBank_status ..).trans h.status

theorem EmbeddingStarted.pending_embedAt (k : Nat) : (embedAt (headerCount i) bits s r k).pending = [] :=
  (setBank_pending ..).trans h.pending

theorem EmbeddingStarted.busy_embedAt (k : Nat) : (embedAt (headerCount i) bits s r k).status.busy = true := by
  rw [h.status_embedAt, statusStarted]

theorem EmbeddingStarted.engineTick_embedAt (k : Nat) : engineTick (embedAt (headerCount i) bits s r k)
    = .next (embedTick (headerCount i) (embedAt (headerCount i) bits s r k) (embedRunAt (headerCount i) s r k)) :=
  engineTick_embedding h.command rfl (congrArg Run.opcl h.fresh)

theorem EmbeddingStarted.movesAlong : MovesAlong (embedAt (headerCount i) bits s r) (s.W * s.H) := fun k hk =>
  ⟨h.busy_embedAt k, h.pending_embedAt k, (h.engineTick_embedAt k).trans (congrArg _ (embedTick_embedAt h.offers hk))⟩

/-- An embedding run ends, a move after its last pixel step, with the embedded grid in the destination bank. -/
theorem EmbeddingStarted.endsAfter :
    EndsAfter (s.W * s.H + 1) s (finish none (s.writeRect s.dst (embed (s.grid s.src) s.W bits))) := by
  have hlast := (h.engineTick_embedAt (s.W * s.H)).trans (congrArg _ (embedTick_embedAt_last ..))
  have hend := h.movesAlong.endsAfter
    (.move (h.busy_embedAt _) (h.pending_embedAt _) hlast (.idle rfl ((writeRect_pending ..).trans h.pending)))
  rwa [h.embedAt_zero] at hend

end

/-- What the start of a `HIDE` writes and a written rectangle touch different fields. -/
theorem finish_writeRect_with_start (e : Option ErrorKind) (s : State) (b : Bank) (G : Grid) (st : Status) (r : Option Run)
    (hd : BitVec 48) :
    finish e (State.writeRect { s with status := st, run := r, hdr := hd } b G)
      = finish e { s.writeRect b G with hdr := hd } := by
  rcases bank_cases b with rfl | rfl <;> rfl

/-- `EMBED`, and `HIDE` where its checks pass, start a run whose bits are those that the whole command embeds. -/
theorem launch_embedding {i : Instr} (hi : i = .embed ∨ i = .hide)
    (hc : hideCheck (maxCapacity s.W s.H) s.plen.toNat = none ∨ i = .embed) (hp : s.pending = []) :
    ∃ bits r u, launch i s = .next u ∧ EmbeddingStarted i bits r u ∧ u.W = s.W ∧ u.H = s.H ∧ u.plen = s.plen ∧
      exec i s = .next (finish none (u.writeRect u.dst (embed (u.grid u.src) u.W bits))) := by
  rcases hi with rfl | rfl
  · exact ⟨_, _, _, launch_embed s, ⟨.inl rfl, rfl, hp, rfl, rfl, offers_embedBits (accept _ s)⟩, rfl, rfl, rfl,
      execEmbed_eq s⟩
  · have hc := hc.resolve_right nofun
    refine ⟨_, _, _, launch_hide_of_none hc, ⟨.inr rfl, rfl, hp, rfl, rfl, offers_frame rfl⟩, rfl, rfl, rfl, ?_⟩
    exact (exec_hide_of_none hc).trans (congrArg _ (finish_writeRect_with_start ..).symm)

/-- The walker's place after `k` advances, also on a grid without columns, where there are none to make. -/
theorem walkerNext_iterate_of_le {W H : Nat} (hk : k ≤ W * H) : (walkerNext W)^[k] (0, 0) = (k % W, k / W) := by
  rcases Nat.eq_zero_or_pos W with rfl | hW
  · obtain rfl : k = 0 := by simpa using hk
    rfl
  · exact walkerNext_iterate hW k

/-- Settles O54: the run moves along its states, whose hidden state shows the walker's place and the bits consumed. -/
theorem embeddingRunTakesOneStepAPixel : Obligations.EmbeddingRunTakesOneStepAPixel := by
  intro i s k hi hc hidle hpace hp hk
  obtain ⟨bits, r, u, hu, hstarted, hW, hH, hplen, -⟩ := launch_embedding (s := { s with pending := [] }) hi hc rfl
  have hW : u.W = s.W := hW
  have hH : u.H = s.H := hH
  have hplen : u.plen = s.plen := hplen
  rw [run_of_writeCmd hidle hpace hp hu, run_of_writeCmd hidle hpace hp hu]
  rw [← hW, ← hH] at hk ⊢
  refine ⟨⟨embedAt (headerCount i) bits u r k, embedRunAt (headerCount i) u r k, ?_, ?_, rfl, ?_, ?_⟩, _,
    hstarted.endsAfter.run_of_le le_rfl, rfl⟩
  · conv_lhs => rw [← hstarted.embedAt_zero]
    exact hstarted.movesAlong.run hk
  · rw [hstarted.status_embedAt]
    rfl
  · exact (walkerNext_iterate_of_le hk).symm
  · rw [← hplen]
    rfl

end Sys2Proof.Machine
end

section
/-! The extracting run (42_engine.md R176): what it holds after each channel, in terms of the stream bits collected. -/

namespace Sys2Proof.Machine

variable {k m needed : Nat} {s t : State} {r : Run} {G : Grid} {W H : Nat}

/-! ## The shift registers and the bytes -/

/-- A shift register that holds the low bits of a sequence takes the next bit in. -/
theorem ofNat_bitsToUint_snoc {w : Nat} (hw : w + 1 ≤ 64) (bits : List Bit) (b : Bit) :
    BitVec.ofNat (w + 1) (bitsToUint (bits ++ [b]))
      = (BitVec.ofNat (w + 1) (bitsToUint bits)).extractLsb' 0 w ++ BitVec.ofBool b := by
  have hsnoc : bitsToUint (bits ++ [b]) = (2 * bitsToUint bits + b.toNat) % 2 ^ 64 := by
    rw [bitsToUint, List.foldl_append]
    rfl
  have hb := b.toNat_lt
  apply BitVec.eq_of_toNat_eq
  calc (BitVec.ofNat (w + 1) (bitsToUint (bits ++ [b]))).toNat
    _ = (2 * bitsToUint bits + b.toNat) % (2 * 2 ^ w) := by
      rw [BitVec.toNat_ofNat, hsnoc, Nat.mod_mod_of_dvd _ (pow_dvd_pow 2 hw), Nat.pow_succ']
    _ = bitsToUint bits % 2 ^ w * 2 + b.toNat := by
      rw [Nat.mod_mul, show (2 * bitsToUint bits + b.toNat) / 2 = bitsToUint bits by omega]
      omega
    _ = _ := by
      rw [BitVec.toNat_append, BitVec.toNat_ofBool, ← Nat.shiftLeft_add_eq_or_of_lt hb, Nat.shiftLeft_eq,
        BitVec.extractLsb'_toNat, BitVec.toNat_ofNat, Nat.shiftRight_zero, Nat.mod_mod_of_dvd _ (pow_dvd_pow 2 w.le_succ)]

/-- A byte register that has taken in a run of eight bits holds them, whatever went before. -/
theorem ofNat_bitsToUint_append_run (bits : List Bit) {run : List Bit} (h : run.length = 8) :
    BitVec.ofNat 8 (bitsToUint (bits ++ run)) = BitVec.ofNat 8 (bitsValue run) := by
  apply BitVec.eq_of_toNat_eq
  rw [BitVec.toNat_ofNat, BitVec.toNat_ofNat, bitsToUint_eq, bitsValue_append, h]
  omega

theorem bitsToBytes_append_run {bits run : List Bit} (hbits : bits.length % 8 = 0) (hrun : run.length = 8) :
    bitsToBytes (bits ++ run) = bitsToBytes bits ++ [BitVec.ofNat 8 (bitsValue run)] := by
  have hback : bytesToBits (bitsToBytes bits ++ [BitVec.ofNat 8 (bitsValue run)]) = bits ++ run := by
    rw [bytesToBits_append, (bytesToBits_bitsToBytes_eq_self_iff bits).mpr hbits, bytesToBits_singleton,
      toNat_ofNat_bitsValue hrun, ← hrun, uintToBits_bitsValue]
  rw [← hback, bitsToBytes_bytesToBits]

/-- Every eighth bit completes a byte, which stands in the byte register then. -/
theorem bitsToBytes_snoc_of_completes {bits : List Bit} (h : bits.length % 8 = 7) (b : Bit) :
    bitsToBytes (bits ++ [b]) = bitsToBytes bits ++ [BitVec.ofNat 8 (bitsToUint (bits ++ [b]))] := by
  obtain ⟨front, tail, rfl, hfront, htail⟩ :
      ∃ front tail, bits = front ++ tail ∧ front.length % 8 = 0 ∧ tail.length = 7 :=
    ⟨_, _, (List.take_append_drop (8 * (bits.length / 8)) bits).symm, by rw [List.length_take]; omega,
      by rw [List.length_drop]; omega⟩
  have hrun : (tail ++ [b]).length = 8 := by rw [List.length_append, htail, List.length_singleton]
  rw [List.append_assoc, bitsToBytes_append_run hfront hrun, ofNat_bitsToUint_append_run front hrun,
    bitsToBytes_append_short hfront (by omega)]

theorem bitsToBytes_snoc_of_not_completes {bits : List Bit} (h : bits.length % 8 ≠ 7) (b : Bit) :
    bitsToBytes (bits ++ [b]) = bitsToBytes bits := by
  have hlen : 8 * ((bits ++ [b]).length / 8) = 8 * (bits.length / 8) := by
    rw [List.length_append, List.length_singleton]
    omega
  rw [← bitsToBytes_take (bits ++ [b]), hlen, List.take_append_of_le_length (by omega), bitsToBytes_take]

theorem memory_writeList_append {α : Type} (m : Memory α) (a : Nat) (vs : List α) (v : α) :
    Memory.writeList m a (vs ++ [v]) = Memory.write (Memory.writeList m a vs) (a + vs.length) v := by
  induction vs generalizing m a with
  | nil => rfl
  | cons u vs ih =>
    rw [List.cons_append, Memory.writeList, Memory.writeList, ih, List.length_cons]
    congr 1
    omega

/-- The bytes stored grow with every eighth bit, by the byte register. -/
theorem writeList_bitsToBytes_snoc (pay : List Host.Cell) (bits : List Bit) (b : Bit) :
    Memory.writeList pay 0 (bitsToBytes (bits ++ [b])) =
      if bits.length % 8 = 7 then
        Memory.write (Memory.writeList pay 0 (bitsToBytes bits)) (bits.length / 8) (BitVec.ofNat 8 (bitsToUint (bits ++ [b])))
      else Memory.writeList pay 0 (bitsToBytes bits) := by
  split
  case isTrue h =>
    rw [bitsToBytes_snoc_of_completes h, memory_writeList_append, bitsToBytes_length, Nat.zero_add]
  case isFalse h => rw [bitsToBytes_snoc_of_not_completes h]

/-! ## One pixel step -/

/-- What an extraction has made of the bits collected so far: the first 48 in `HSR`, the others in `BSR` and, a whole byte at
a time, in `PAY`. -/
def extractLaneAt (pay : List Host.Cell) (bits : List Bit) : ExtractLane :=
  { n := bits.length, hsr := hdrOfBits (bits.take 48), bsr := BitVec.ofNat 8 (bitsToUint (bits.drop 48))
    pay := Memory.writeList pay 0 (bitsToBytes (bits.drop 48)) }

theorem extractChannel_of_complete (px : Pixel) {l : ExtractLane} (h : needed ≤ l.n) (c : Fin Config.channels) :
    extractChannel needed px l c = l :=
  if_neg (not_lt.mpr h)

theorem extractChannel_of_header (pay : List Host.Cell) (px : Pixel) {bits : List Bit} (h : bits.length < needed)
    (h48 : bits.length < 48) (c : Fin Config.channels) :
    extractChannel needed px (extractLaneAt pay bits) c = extractLaneAt pay (bits ++ [(px.ch c).getLsbD 0]) := by
  have hshift := ofNat_bitsToUint_snoc (w := 47) (by norm_num) bits ((px.ch c).getLsbD 0)
  have hlen : (bits ++ [(px.ch c).getLsbD 0]).length ≤ 48 := by simpa using h48
  simp only [extractChannel, extractLaneAt, Config.headerBits_eq, h, h48, if_true, List.take_of_length_le h48.le,
    List.take_of_length_le hlen, List.drop_of_length_le h48.le, List.drop_of_length_le hlen, List.length_append,
    List.length_singleton, hdrOfBits, hshift]

theorem extractChannel_of_payload (pay : List Host.Cell) (px : Pixel) {bits : List Bit} (h : bits.length < needed)
    (h48 : 48 ≤ bits.length) (c : Fin Config.channels) :
    extractChannel needed px (extractLaneAt pay bits) c = extractLaneAt pay (bits ++ [(px.ch c).getLsbD 0]) := by
  have hshift := ofNat_bitsToUint_snoc (w := 7) (by norm_num) (bits.drop 48) ((px.ch c).getLsbD 0)
  have hlen : (bits.drop 48).length = bits.length - 48 := List.length_drop
  have hpay := writeList_bitsToBytes_snoc pay (bits.drop 48) ((px.ch c).getLsbD 0)
  by_cases hbyte : (bits.length - 48) % 8 = 7 <;>
    simp only [extractChannel, extractLaneAt, Config.headerBits_eq, h, not_lt.mpr h48, hbyte, hpay, hlen, hshift,
      List.take_append_of_le_length h48, List.drop_append_of_le_length h48, List.length_append, List.length_singleton,
      if_true, if_false]

/-- A channel adds its bit to those collected, until all needed are there. -/
theorem extractChannel_laneAt (needed : Nat) (pay : List Host.Cell) {stream : List Bit} {px : Pixel}
    {c : Fin Config.channels} (h : stream[m]? = some ((px.ch c).getLsbD 0)) :
    extractChannel needed px (extractLaneAt pay (stream.take (min needed m))) c
      = extractLaneAt pay (stream.take (min needed (m + 1))) := by
  obtain ⟨hm, -⟩ := List.getElem?_eq_some_iff.mp h
  by_cases hn : m < needed
  · have hlen : (stream.take m).length = m := List.length_take_of_le hm.le
    rw [min_eq_right hn.le, min_eq_right (Nat.succ_le_of_lt hn), List.take_add_one, h]
    rcases Nat.lt_or_ge m 48 with h48 | h48
    · exact extractChannel_of_header pay px (hlen.trans_lt hn) (hlen.trans_lt h48) c
    · exact extractChannel_of_payload pay px (hlen.trans_lt hn) (h48.trans_eq hlen.symm) c
  · have hle := not_lt.mp hn
    rw [min_eq_left hle, min_eq_left (hle.trans m.le_succ)]
    exact extractChannel_of_complete px (List.length_take_of_le (hle.trans hm.le)).ge c

theorem foldl_extractChannel (needed : Nat) (pay : List Host.Cell) (G : Grid) (hk : k < W * H) :
    channelOrder.foldl (extractChannel needed (G (k % W) (k / W)))
        (extractLaneAt pay ((lsbStream G W H).take (min needed (3 * k))))
      = extractLaneAt pay ((lsbStream G W H).take (min needed (3 * (k + 1)))) := by
  have hbit (c : Fin 3) : (lsbStream G W H)[3 * k + c]? = some (((G (k % W) (k / W)).ch c).getLsbD 0) :=
    flatMap_lsbs_get G (scan W H) k _ c (scan_get hk)
  simp only [channelOrder, List.foldl_cons, List.foldl_nil]
  rw [extractChannel_laneAt (m := 3 * k) needed pay (hbit 0), extractChannel_laneAt (m := 3 * k + 1) needed pay (hbit 1),
    extractChannel_laneAt (m := 3 * k + 2) needed pay (hbit 2)]
  rfl

/-! ## The state at a pixel step -/

/-- The stream bits collected in `k` pixel steps. -/
def State.collected (s : State) (needed k : Nat) : List Bit :=
  (lsbStream (s.grid s.src) s.W s.H).take (min needed (3 * k))

/-- The hidden state after `k` pixel steps. -/
def extractRunAt (s : State) (needed : Nat) (phase : Phase) (k : Nat) : Run :=
  { capacityRun .extract s with
    x := k % s.W, y := k / s.W, needed := needed, phase := phase
    n := (extractLaneAt s.pay (s.collected needed k)).n, hsr := (extractLaneAt s.pay (s.collected needed k)).hsr
    bsr := (extractLaneAt s.pay (s.collected needed k)).bsr }

/-- The state `k` pixel steps into the extracting run that started in `s`. -/
def extractAt (s : State) (needed : Nat) (phase : Phase) (k : Nat) : State :=
  { s with pay := (extractLaneAt s.pay (s.collected needed k)).pay, run := some (extractRunAt s needed phase k) }

theorem extractEnd_with_run (s : State) (r : Run) (r' : Option Run) : extractEnd { s with run := r' } r = extractEnd s r := by
  unfold extractEnd
  split_ifs <;> rfl

theorem extractPhase_with_run (s : State) (r : Run) (r' : Option Run) :
    extractPhase { s with run := r' } r = extractPhase s r := by
  unfold extractPhase extractEnd
  split_ifs <;> rfl

/-- A pixel step collects the next bits; the tests after it see the state that they make. -/
theorem extractTick_extractAt (s : State) (needed : Nat) (phase : Phase) (hk : k < s.W * s.H) :
    extractTick (extractAt s needed phase k) (extractRunAt s needed phase k)
      = extractPhase (extractAt s needed phase (k + 1)) (extractRunAt s needed phase (k + 1)) := by
  have hwalk : walkerExhausted s.W s.H (k / s.W) = false :=
    Bool.eq_false_iff.mpr (mt (walkerExhausted_scan_iff hk.le).mp hk.ne)
  have hnext : walkerNext s.W (k % s.W, k / s.W) = ((k + 1) % s.W, (k + 1) / s.W) :=
    walkerNext_mod_div (Nat.pos_of_mul_pos_right (Nat.zero_lt_of_lt hk)) k
  have hlane : extractLane (extractAt s needed phase k) (extractRunAt s needed phase k)
      = extractLaneAt s.pay (s.collected needed (k + 1)) :=
    foldl_extractChannel needed s.pay (s.grid s.src) hk
  rw [extractTick_of_walking hwalk, hlane, show (extractAt s needed phase k).W = s.W from rfl]
  simp only [extractRunAt, hnext]
  exact extractPhase_with_run (extractAt s needed phase (k + 1)) (extractRunAt s needed phase (k + 1))
    (some (extractRunAt s needed phase k))

/-! ## The header phase -/

theorem collected_length {s : State} (hk : k ≤ s.W * s.H) (needed : Nat) :
    (s.collected needed k).length = min needed (3 * k) := by
  refine List.length_take_of_le ?_
  rw [lsbStream_length, totalBits_eq]
  omega

/-- `HSR` holds the header that the source bank announces, once its bits are collected. -/
theorem extractRunAt_hsr {s : State} (h48 : 48 ≤ min needed (3 * k)) (phase : Phase) :
    (extractRunAt s needed phase k).hsr = s.streamHeader := by
  have htake : (s.collected needed k).take 48 = (lsbStream (s.grid s.src) s.W s.H).take 48 := by
    rw [State.collected, List.take_take, min_eq_left h48]
  simp only [extractRunAt, extractLaneAt, htake]
  rfl

/-- No payload byte is written in the header phase. -/
theorem extractAt_header_pay (s : State) (k : Nat) : (extractAt s 48 .header k).pay = s.pay := by
  have hdrop : (s.collected 48 k).drop 48 = [] :=
    List.drop_of_length_le ((List.length_take_le ..).trans (Nat.min_le_left ..))
  simp only [extractAt, extractLaneAt, hdrop]
  rfl

theorem finish_extractAt_header (e : Option ErrorKind) (s : State) (k : Nat) :
    finish e (extractAt s 48 .header k) = finish e s :=
  calc finish e (extractAt s 48 .header k)
    _ = finish e { s with pay := (extractAt s 48 .header k).pay } := rfl
    _ = finish e s := by rw [extractAt_header_pay]

/-- Before its 48th bit the run only collects. -/
theorem extractPhase_before_header {s : State} (hk : k ≤ s.W * s.H) (h48 : 3 * k < 48) :
    extractPhase (extractAt s 48 .header k) (extractRunAt s 48 .header k) = extractAt s 48 .header k := by
  have hn : (extractRunAt s 48 .header k).n = 3 * k := (collected_length hk 48).trans (min_eq_right h48.le)
  have hphase : (extractRunAt s 48 .header k).phase ≠ .payload := nofun
  unfold extractPhase
  rw [if_neg (by rw [hn, Config.headerBits_eq]; omega), extractEnd_of_incomplete fun h => hphase h.1]
  rfl

/-- The payload phase starts with what the header phase has collected. -/
theorem extractEnd_payload_start (s : State) (hd : BitVec 48) (L : Nat) :
    extractEnd (extractAt { s with hdr := hd } (neededBits L) .payload 16)
        (extractRunAt { s with hdr := hd } (neededBits L) .payload 16)
      = extractEnd { extractAt s 48 .header 16 with hdr := hd }
        { extractRunAt s 48 .header 16 with needed := neededBits L, phase := .payload } := by
  have hcollected : State.collected { s with hdr := hd } (neededBits L) 16 = s.collected 48 16 :=
    congrArg (List.take · (lsbStream (s.grid s.src) s.W s.H)) (by rw [neededBits_eq]; omega)
  simp only [extractAt, extractRunAt, hcollected]
  exact extractEnd_with_run { extractAt s 48 .header 16 with hdr := hd } _ _

/-- With the whole header collected the run writes `HDR` and makes the two tests, each of which can end it. -/
theorem extractPhase_at_header {s : State} (hk : 16 ≤ s.W * s.H) :
    extractPhase (extractAt s 48 .header 16) (extractRunAt s 48 .header 16) =
      if s.streamHeader.extractLsb' 32 16 ≠ 0x4454 then finish (some .headerNotFound) { s with hdr := s.streamHeader }
      else if maxCapacity s.W s.H < (s.streamHeader.extractLsb' 0 32).toNat then
        finish (some .invalidLength) { s with hdr := s.streamHeader }
      else
        extractEnd (extractAt { s with hdr := s.streamHeader } (neededBits (s.streamHeader.extractLsb' 0 32).toNat) .payload 16)
          (extractRunAt { s with hdr := s.streamHeader } (neededBits (s.streamHeader.extractLsb' 0 32).toNat) .payload 16) := by
  have hn : (extractRunAt s 48 .header 16).n = 48 := collected_length hk 48
  have hmagic (v : BitVec 48) : (magicField v).toNat ≠ Config.magicValue ↔ v.extractLsb' 32 16 ≠ 0x4454 :=
    not_congr (BitVec.toNat_inj (y := (0x4454 : BitVec 16)))
  rw [← extractRunAt_hsr (needed := 48) (k := 16) (by norm_num) .header, extractEnd_payload_start, extractPhase,
    if_pos ⟨rfl, hn⟩]
  exact if_congr (hmagic _) (finish_extractAt_header _ { s with hdr := (extractRunAt s 48 .header 16).hsr } 16)
    (if_congr Iff.rfl (finish_extractAt_header _ { s with hdr := (extractRunAt s 48 .header 16).hsr } 16) rfl)

/-! ## The payload phase -/

/-- What a successful extraction leaves. -/
def extractDone (s : State) (needed : Nat) : State :=
  finish none { s with
    plen := s.streamHeader.extractLsb' 0 32
    pay := Memory.writeList s.pay 0 (bitsToBytes (((lsbStream (s.grid s.src) s.W s.H).take needed).drop 48)) }

theorem extractEnd_payload_done {s : State} (h48 : 48 ≤ needed) (hT : needed ≤ totalBits s.W s.H) (hk : needed ≤ 3 * k) :
    extractEnd (extractAt s needed .payload k) (extractRunAt s needed .payload k) = extractDone s needed := by
  have hcollected : s.collected needed k = (lsbStream (s.grid s.src) s.W s.H).take needed := by
    rw [State.collected, min_eq_left hk]
  have hn : (extractRunAt s needed .payload k).n = needed :=
    (congrArg List.length hcollected).trans (List.length_take_of_le (by rwa [lsbStream_length]))
  rw [extractEnd_of_complete rfl hn, extractRunAt_hsr (by rwa [min_eq_left hk]), extractDone, ← hcollected]
  rfl

theorem extractEnd_payload_more {s : State} (hk : k ≤ s.W * s.H) (hmore : 3 * k < needed) :
    extractEnd (extractAt s needed .payload k) (extractRunAt s needed .payload k) = extractAt s needed .payload k := by
  have hn : (extractRunAt s needed .payload k).n = 3 * k := (collected_length hk needed).trans (min_eq_right hmore.le)
  rw [extractEnd_of_incomplete fun h => (hn ▸ h.2 : 3 * k = needed).not_lt hmore]
  rfl

theorem extractPhase_payload (s : State) (needed k : Nat) :
    extractPhase (extractAt s needed .payload k) (extractRunAt s needed .payload k)
      = extractEnd (extractAt s needed .payload k) (extractRunAt s needed .payload k) :=
  if_neg fun h => nomatch h.1

/-- From its `k`-th pixel step on, a payload phase makes the steps that are left of `(NEEDED + 2) div 3`. -/
theorem payload_endsAfter {s : State} (hstatus : s.status = statusStarted) (hp : s.pending = []) (h48 : 48 ≤ needed)
    (hT : needed ≤ totalBits s.W s.H) (k : Nat) :
    EndsAfter ((needed + 2) / 3 - k) (extractEnd (extractAt s needed .payload k) (extractRunAt s needed .payload k))
      (extractDone s needed) := by
  induction hd : (needed + 2) / 3 - k generalizing k with
  | zero =>
    rw [extractEnd_payload_done h48 hT (by omega)]
    exact .idle rfl hp
  | succ d ih =>
    rw [totalBits_eq] at hT
    have hk : k < s.W * s.H := by omega
    rw [extractEnd_payload_more hk.le (by omega)]
    refine .move (congrArg Status.busy hstatus) hp ?_ (ih (k + 1) (by omega))
    rw [engineTick_extract rfl rfl, extractTick_extractAt s needed .payload hk, extractPhase_payload]

/-! ## The run -/

theorem engineTick_extractAt_header (hk : k < s.W * s.H) : engineTick (extractAt s 48 .header k)
    = .next (extractPhase (extractAt s 48 .header (k + 1)) (extractRunAt s 48 .header (k + 1))) := by
  rw [engineTick_extract rfl rfl, extractTick_extractAt s 48 .header hk]

/-- `s` is where the start of an `EXTRACT` leaves the block. -/
structure ExtractingStarted (s : State) : Prop where
  status : s.status = statusStarted
  pending : s.pending = []
  run : s.run = some (capacityRun .extract s)

section
variable {n : Nat} (h : ExtractingStarted s)
include h

theorem ExtractingStarted.extractAt_zero : extractAt s 48 .header 0 = s := by
  have hr : extractRunAt s 48 .header 0 = capacityRun .extract s := by
    simp [extractRunAt, State.collected, extractLaneAt, capacityRun, startRun, hdrOfBits, bitsToUint]
  calc extractAt s 48 .header 0
    _ = { s with pay := (extractAt s 48 .header 0).pay, run := some (extractRunAt s 48 .header 0) } := rfl
    _ = { s with run := some (capacityRun .extract s) } := by rw [extractAt_header_pay, hr]
    _ = s := by rw [← h.run]

theorem ExtractingStarted.movesAlong_header (hm : m ≤ s.W * s.H) (h15 : m ≤ 15) :
    MovesAlong (extractAt s 48 .header) m := by
  intro k hk
  refine ⟨congrArg Status.busy h.status, h.pending, ?_⟩
  rw [engineTick_extractAt_header (hk.trans_le hm), extractPhase_before_header (by omega) (by omega)]

/-- On a grid too short for a header the run ends where the walker is exhausted. -/
theorem ExtractingStarted.endsAfter_short (hT : totalBits s.W s.H < 48) :
    EndsAfter (s.W * s.H + 1) s (finish (some .truncatedData) s) := by
  rw [totalBits_eq] at hT
  have hlast : engineTick (extractAt s 48 .header (s.W * s.H)) = .next (finish (some .truncatedData) s) := by
    rw [engineTick_extract rfl rfl, extractTick_of_exhausted ((walkerExhausted_scan_iff le_rfl).mpr rfl),
      finish_extractAt_header]
    rfl
  have hend := (h.movesAlong_header le_rfl (by omega)).endsAfter
    (.move (congrArg Status.busy h.status) h.pending hlast (.idle rfl h.pending))
  rwa [h.extractAt_zero] at hend

/-- Else its sixteenth step collects the header, and what is left depends on that. -/
theorem ExtractingStarted.endsAfter_header {u : State} (hk : 16 ≤ s.W * s.H)
    (hphase : extractPhase (extractAt s 48 .header 16) (extractRunAt s 48 .header 16) = u) (hrest : EndsAfter n u t) :
    EndsAfter (16 + n) s t := by
  have hend := (h.movesAlong_header (m := 15) (by omega) le_rfl).endsAfter
    (.move (congrArg Status.busy h.status) h.pending (engineTick_extractAt_header (by omega)) (hphase ▸ hrest))
  rw [h.extractAt_zero] at hend
  rwa [show 16 + n = 15 + (n + 1) by omega]

end

end Sys2Proof.Machine
end

section
/-! The extracting run against the command `EXTRACT` (43_service.md R197): how it ends, and after how many moves. -/

namespace Sys2Proof.Machine

variable {s t : State}

/-- The moves of an extracting run by its outcome `t` (42_engine.md R176): one for each pixel that holds needed bits, or one
for every pixel and one more where they run out. -/
def extractMoves (s t : State) : Nat :=
  if t.status.ecode = 0 then (neededBits t.plen.toNat + 2) / 3
  else if t.status.ecode = 3 then s.W * s.H + 1
  else 16

theorem exec_extract_of_length_le (hT : 48 ≤ totalBits s.W s.H) (hm : s.streamHeader.extractLsb' 32 16 = 0x4454)
    (hl : (s.streamHeader.extractLsb' 0 32).toNat ≤ maxCapacity s.W s.H) :
    exec .extract s = .next (extractDone { s with hdr := s.streamHeader }
      (neededBits (s.streamHeader.extractLsb' 0 32).toNat)) := by
  obtain ⟨bytes, hf, hlen, hbits⟩ := found_of_length_le hT hm hl
  have hbytes : bytes = bitsToBytes (((lsbStream (s.grid s.src) s.W s.H).take
      (neededBits (s.streamHeader.extractLsb' 0 32).toNat)).drop 48) := by
    rw [List.drop_take, neededBits_eq, Nat.add_sub_cancel_left, Nat.mul_comm, ← hbits, bitsToBytes_bytesToBits]
  rw [exec_extract_of_ok hT.not_gt hf, hlen, BitVec.ofNat_toNat, BitVec.setWidth_eq, hbytes]
  rfl

/-- With a valid header the run ends with the last bit that it needs. -/
theorem ExtractingStarted.endsAfter_success (h : ExtractingStarted s) (hT : 48 ≤ totalBits s.W s.H)
    (hm : s.streamHeader.extractLsb' 32 16 = 0x4454)
    (hl : (s.streamHeader.extractLsb' 0 32).toNat ≤ maxCapacity s.W s.H) :
    EndsAfter ((neededBits (s.streamHeader.extractLsb' 0 32).toNat + 2) / 3) s
      (extractDone { s with hdr := s.streamHeader } (neededBits (s.streamHeader.extractLsb' 0 32).toNat)) := by
  have hk : 16 ≤ s.W * s.H := by rw [totalBits_eq] at hT; omega
  have h48 : 48 ≤ neededBits (s.streamHeader.extractLsb' 0 32).toNat := Nat.le_add_right ..
  have hphase := extractPhase_at_header hk
  rw [if_neg (not_not.mpr hm), if_neg hl.not_gt] at hphase
  have hend := h.endsAfter_header hk hphase (payload_endsAfter (s := { s with hdr := s.streamHeader }) h.status h.pending h48
    (neededBits_le_totalBits hT.not_gt hl) 16)
  rwa [Nat.add_sub_cancel' (by omega)] at hend

/-- The run ends as the whole command does, each outcome after its own number of moves. -/
theorem ExtractingStarted.endsAfter (h : ExtractingStarted s) (ht : exec .extract s = .next t) :
    EndsAfter (extractMoves s t) s t ∧ extractMoves s t ≤ s.W * s.H + 1 := by
  rcases Nat.lt_or_ge (totalBits s.W s.H) 48 with hT | hT
  · obtain rfl := next_unique ht (exec_extract_of_short hT)
    exact ⟨h.endsAfter_short hT, le_rfl⟩
  have hk : 16 ≤ s.W * s.H := by rw [totalBits_eq] at hT; omega
  have hphase := extractPhase_at_header hk
  by_cases hm : s.streamHeader.extractLsb' 32 16 = 0x4454
  · rcases Nat.lt_or_ge (maxCapacity s.W s.H) (s.streamHeader.extractLsb' 0 32).toNat with hl | hl
    · obtain rfl := next_unique ht (exec_extract_of_error hT.not_gt (found_of_length_gt hT hm hl))
      rw [if_neg (not_not.mpr hm), if_pos hl] at hphase
      exact ⟨h.endsAfter_header (n := 0) hk hphase (.idle rfl h.pending), hk.trans (Nat.le_succ _)⟩
    · obtain rfl := next_unique ht (exec_extract_of_length_le hT hm hl)
      refine ⟨h.endsAfter_success hT hm hl, ?_⟩
      have hneeded := neededBits_le_totalBits hT.not_gt hl
      rw [totalBits_eq] at hneeded
      change (neededBits (s.streamHeader.extractLsb' 0 32).toNat + 2) / 3 ≤ _
      omega
  · obtain rfl := next_unique ht (exec_extract_of_error hT.not_gt (found_of_magic_ne hT hm))
    rw [if_pos hm] at hphase
    exact ⟨h.endsAfter_header (n := 0) hk hphase (.idle rfl h.pending), hk.trans (Nat.le_succ _)⟩

/-- The start of an `EXTRACT` keeps everything that the command reads. -/
theorem launch_extract_endsAfter (hp : s.pending = []) (ht : exec .extract s = .next t) : ∃ u, launch .extract s = .next u ∧
    EndsAfter (extractMoves s t) u t ∧ extractMoves s t ≤ s.W * s.H + 1 := by
  have hstarted : ExtractingStarted { s with status := statusStarted, run := some (capacityRun .extract s) } :=
    ⟨rfl, hp, rfl⟩
  exact ⟨_, launch_extract s, hstarted.endsAfter ht⟩

/-- Settles O55: the run is busy for as many moves as its end is away. -/
theorem extractingRunStepCounts : Obligations.ExtractingRunStepCounts := by
  intro s t k hidle hpace hp ht
  obtain ⟨u, hu, hend, -⟩ := launch_extract_endsAfter rfl ht
  rw [run_of_writeCmd hidle hpace hp hu]
  exact hend.busy_iff k

end Sys2Proof.Machine
end

section
/-! The two paces agree (70_reset_and_hazards.md R266): a command taken pixel by pixel ends where the command taken whole
does. -/

namespace Sys2Proof.Machine

variable {s : State}

/-- A command that ends in one step, whichever the pace. -/
theorem endsAfter_of_exec {i : Instr} {t : State} (hp : s.pending = []) (ht : exec i s = .next t) : EndsAfter 0 t t := by
  obtain ⟨-, -, -, -, -, -, -, -, -, hpending, -⟩ := commandsWriteOnlyTheirColumns i s t ht
  obtain ⟨u, hu, hidle, -⟩ := everyCommandEnds i s
  obtain rfl := next_unique ht hu
  exact .idle hidle (hpending.trans hp)

/-- The start of each command leads, in at most `W*H + 1` moves, to the state that the command whole gives. -/
theorem launch_endsAfter (i : Instr) (hp : s.pending = []) :
    ∃ u t n, launch i s = .next u ∧ exec i s = .next t ∧ EndsAfter n u t ∧ n ≤ s.W * s.H + 1 := by
  have hwhole (hlaunch : launch i s = exec i s) :
      ∃ u t n, launch i s = .next u ∧ exec i s = .next t ∧ EndsAfter n u t ∧ n ≤ s.W * s.H + 1 := by
    obtain ⟨t, ht⟩ := exec_goes_on i s
    exact ⟨t, t, 0, hlaunch.trans ht, ht, endsAfter_of_exec hp ht, Nat.zero_le _⟩
  have hembedding (hi : i = .embed ∨ i = .hide)
      (hc : hideCheck (maxCapacity s.W s.H) s.plen.toNat = none ∨ i = .embed) :
      ∃ u t n, launch i s = .next u ∧ exec i s = .next t ∧ EndsAfter n u t ∧ n ≤ s.W * s.H + 1 := by
    obtain ⟨bits, r, u, hu, hstarted, hW, hH, -, hexec⟩ := launch_embedding hi hc hp
    exact ⟨u, _, _, hu, hexec, hstarted.endsAfter, by rw [hW, hH]⟩
  cases i with
  | cap => exact hwhole rfl
  | hdrser => exact hwhole rfl
  | hdrparse => exact hwhole rfl
  | embed => exact hembedding (.inl rfl) (.inr rfl)
  | hide =>
    cases hc : hideCheck (maxCapacity s.W s.H) s.plen.toNat with
    | some e => exact hwhole ((launch_hide_of_some hc).trans (exec_hide_of_some hc).symm)
    | none => exact hembedding (.inr rfl) (.inl hc)
  | extract =>
    obtain ⟨t, ht⟩ := exec_goes_on .extract s
    obtain ⟨u, hu, hend, hle⟩ := launch_extract_endsAfter hp ht
    exact ⟨u, t, _, hu, ht, hend, hle⟩

/-- Settles O53: the first step starts the command, and its run ends within the steps that are left. -/
theorem pixelStepsAgreeWithTheFunctionalRules : Obligations.PixelStepsAgreeWithTheFunctionalRules := by
  intro i s hidle hpace hp
  obtain ⟨u, t, n, hu, ht, hend, hle⟩ := launch_endsAfter (s := { s with pending := [] }) i rfl
  rw [ht, Nat.add_comm (s.W * s.H) 2, Nat.add_assoc 1 1, run_of_writeCmd hidle hpace hp hu, Nat.add_comm 1]
  exact hend.run_of_le hle

end Sys2Proof.Machine
end
